-- ==== Sys2Proof/Word.lean ====
section
/-! DEFINITION. The machine's word types. Every value is unsigned (spec 00_scope.md R7); bit 0 is the least
significant bit (R6). -/

namespace Sys2Proof

/-- A memory cell, a general register, a timer, an immediate `kk` (00_scope.md R5). -/
abbrev Byte := BitVec 8

/-- An instruction word, `I`, `pc`, a stack entry (00_scope.md R5). -/
abbrev Word := BitVec 16

/-- The 12-bit immediate `nnn` (30_encoding.md R61). -/
abbrev Addr12 := BitVec 12

/-- The index of a general register V0..VF, of a key, or a sprite height: a 4-bit field, all 16 values legal
(30_encoding.md R61, R63). -/
abbrev Nib := Fin 16

end Sys2Proof
end

