-- ==== Sys2Proof/Config.lean ====
section
/-! DEFINITION. What the spec leaves open: the free inputs of a cycle, the parameters IPS and FONT, and the sizes it
fixes (00_scope.md R5). The free values are opaque: nothing can evaluate them, so a claim holds for every value. -/

namespace Sys2Proof.Config

/-- MEM_SIZE (00_scope.md R5). -/
abbrev memSize : Nat := 4096

/-- FONT_LEN: the font table occupies `[0x000, 0x050)` (00_scope.md R5). -/
abbrev fontLen : Nat := 80

/-- PROG_BASE: the load address of the ROM and the reset value of `pc` (00_scope.md R5). -/
abbrev progBase : Nat := 0x200

/-- ROM_MAX (00_scope.md R5; 90_conflicts.md C1). -/
abbrev romMax : Nat := 3584

/-- STACK_DEPTH (00_scope.md R5). -/
abbrev stackDepth : Nat := 16

/-- IPS, cycles per second: an OPEN parameter that no rule reads (70_reset_and_hazards.md R246). Log 5. -/
opaque ips : Nat

/-- The key levels of the `n`-th freely drawn cycle: a free input under no law (10_state.md R26). Log 3. -/
opaque freeKeysIn : Nat → BitVec 16

/-- The random byte of the `n`-th freely drawn cycle: a free input under no law (41_load_alu.md R132). Log 3. -/
opaque freeRnd : Nat → Byte

/-- Whether a timer tick is due in the `n`-th freely drawn cycle (60_exceptions.md R211, R213). Log 3. -/
opaque freeTickDue : Nat → Bool

/-- Whether the host issued RenderAck just before the `n`-th freely drawn cycle (60_exceptions.md R217). Log 3. -/
opaque freeRenderAck : Nat → Bool

/-- Glyphs 0 to 7 of the default FONT (20_memory.md R55). PRESUMED: general knowledge, as R55 says. Log 2. -/
def fontGlyphsLow : List Byte :=
  [0xF0, 0x90, 0x90, 0x90, 0xF0] ++ [0x20, 0x60, 0x20, 0x20, 0x70] ++
  [0xF0, 0x10, 0xF0, 0x80, 0xF0] ++ [0xF0, 0x10, 0xF0, 0x10, 0xF0] ++
  [0x90, 0x90, 0xF0, 0x10, 0x10] ++ [0xF0, 0x80, 0xF0, 0x10, 0xF0] ++
  [0xF0, 0x80, 0xF0, 0x90, 0xF0] ++ [0xF0, 0x10, 0x20, 0x40, 0x40]

/-- Glyphs 8 to F of the default FONT (20_memory.md R55). PRESUMED. Log 2. -/
def fontGlyphsHigh : List Byte :=
  [0xF0, 0x90, 0xF0, 0x90, 0xF0] ++ [0xF0, 0x90, 0xF0, 0x10, 0xF0] ++
  [0xF0, 0x90, 0xF0, 0x90, 0x90] ++ [0xE0, 0x90, 0xE0, 0x90, 0xE0] ++
  [0xF0, 0x80, 0x80, 0x80, 0xF0] ++ [0xE0, 0x90, 0x90, 0x90, 0xE0] ++
  [0xF0, 0x80, 0xF0, 0x80, 0xF0] ++ [0xF0, 0x80, 0xF0, 0x80, 0x80]

/-- The default value of the parameter FONT (20_memory.md R55; 92_eei_decisions.md D11). Only `State.reset` uses it:
every statement over all states holds for every FONT. PRESUMED. Log 2. -/
def defaultFont : Vector Byte fontLen :=
  ⟨(fontGlyphsLow ++ fontGlyphsHigh).toArray, rfl⟩

end Sys2Proof.Config
end

