-- ==== Sys2Proof/Syntax.lean ====
section
/-! DEFINITION. The 34 instructions of the opcode map (30_encoding.md R65), one constructor per row, in the table's
order. Operands are the fields of R61: `x`, `y` name general registers, `n` is a sprite height, `kk` and `nnn` are
immediates. The types carry each field's range, so every term is an instruction. -/

namespace Sys2Proof

/-- The instructions (30_encoding.md R65). -/
inductive Instr where
  /-- `00E0` CLS. -/
  | cls
  /-- `00EE` RET. -/
  | ret
  /-- `1nnn` JP nnn. -/
  | jp (nnn : Addr12)
  /-- `2nnn` CALL nnn. -/
  | call (nnn : Addr12)
  /-- `3xkk` SE Vx, kk. -/
  | seImm (x : Nib) (kk : Byte)
  /-- `4xkk` SNE Vx, kk. -/
  | sneImm (x : Nib) (kk : Byte)
  /-- `5xy0` SE Vx, Vy. -/
  | seReg (x y : Nib)
  /-- `6xkk` LD Vx, kk. -/
  | ldImm (x : Nib) (kk : Byte)
  /-- `7xkk` ADD Vx, kk. -/
  | addImm (x : Nib) (kk : Byte)
  /-- `8xy0` LD Vx, Vy. -/
  | ldReg (x y : Nib)
  /-- `8xy1` OR Vx, Vy. -/
  | orReg (x y : Nib)
  /-- `8xy2` AND Vx, Vy. -/
  | andReg (x y : Nib)
  /-- `8xy3` XOR Vx, Vy. -/
  | xorReg (x y : Nib)
  /-- `8xy4` ADD Vx, Vy. -/
  | addReg (x y : Nib)
  /-- `8xy5` SUB Vx, Vy. -/
  | subReg (x y : Nib)
  /-- `8xy6` SHR Vx, Vy. -/
  | shrReg (x y : Nib)
  /-- `8xy7` SUBN Vx, Vy. -/
  | subnReg (x y : Nib)
  /-- `8xyE` SHL Vx, Vy. -/
  | shlReg (x y : Nib)
  /-- `9xy0` SNE Vx, Vy. -/
  | sneReg (x y : Nib)
  /-- `Annn` LD I, nnn. -/
  | ldI (nnn : Addr12)
  /-- `Bnnn` JP V0, nnn. -/
  | jpV0 (nnn : Addr12)
  /-- `Cxkk` RND Vx, kk. -/
  | rnd (x : Nib) (kk : Byte)
  /-- `Dxyn` DRW Vx, Vy, n. -/
  | drw (x y n : Nib)
  /-- `Ex9E` SKP Vx. -/
  | skp (x : Nib)
  /-- `ExA1` SKNP Vx. -/
  | sknp (x : Nib)
  /-- `Fx07` LD Vx, DT. -/
  | ldVxDT (x : Nib)
  /-- `Fx0A` LD Vx, K. -/
  | ldVxK (x : Nib)
  /-- `Fx15` LD DT, Vx. -/
  | ldDTVx (x : Nib)
  /-- `Fx18` LD ST, Vx. -/
  | ldSTVx (x : Nib)
  /-- `Fx1E` ADD I, Vx. -/
  | addI (x : Nib)
  /-- `Fx29` LD F, Vx. -/
  | ldF (x : Nib)
  /-- `Fx33` LD B, Vx. -/
  | ldB (x : Nib)
  /-- `Fx55` LD [I], Vx. -/
  | storeRegs (x : Nib)
  /-- `Fx65` LD Vx, [I]. -/
  | loadRegs (x : Nib)
deriving DecidableEq, Repr

end Sys2Proof
end

