-- ==== Sys2Proof/Decode.lean ====
section
/-! DEFINITION. The decoder of 30_encoding.md R64, total on every byte list, and the encoder of R62 and R65. -/

namespace Sys2Proof

/-- Why bytes are no instruction. -/
inductive DecodeError where
  /-- The word matches no row (30_encoding.md R66); the step raises `UnknownOpcode` (60_exceptions.md R201). Safe. -/
  | unknownOpcode (w : Word)
  /-- Fewer than the two bytes of an instruction (30_encoding.md R60); a fetch never gives this. Safe. -/
  | truncated
deriving DecidableEq, Repr

/-- `v[hi:lo]`, the unsigned value of bits hi down to lo (00_scope.md R6). -/
def bits (w : Word) (hi lo : Nat) : Nat := w.toNat / 2 ^ lo % 2 ^ (hi + 1 - lo)

/-- The family nibble, `op[15:12]` (30_encoding.md R61). -/
def familyField (w : Word) : Nat := bits w 15 12

/-- `x`, `op[11:8]` (30_encoding.md R61). -/
def xField (w : Word) : Nib := Fin.ofNat 16 (bits w 11 8)

/-- `y`, `op[7:4]` (30_encoding.md R61). -/
def yField (w : Word) : Nib := Fin.ofNat 16 (bits w 7 4)

/-- `n`, `op[3:0]` (30_encoding.md R61). -/
def nField (w : Word) : Nib := Fin.ofNat 16 (bits w 3 0)

/-- `kk`, `op[7:0]` (30_encoding.md R61). -/
def kkField (w : Word) : Byte := BitVec.ofNat 8 (bits w 7 0)

/-- `nnn`, `op[11:0]` (30_encoding.md R61). -/
def nnnField (w : Word) : Addr12 := BitVec.ofNat 12 (bits w 11 0)

/-- Family 0: the whole word is compared (30_encoding.md R64). -/
def decodeFamily0 (w : Word) : Except DecodeError Instr :=
  if w = 0x00E0 then .ok .cls
  else if w = 0x00EE then .ok .ret
  else .error (.unknownOpcode w)

/-- Family 8: dispatched on the low nibble (30_encoding.md R64). -/
def decodeFamily8 (w : Word) : Except DecodeError Instr :=
  match bits w 3 0 with
  | 0x0 => .ok (.ldReg (xField w) (yField w))
  | 0x1 => .ok (.orReg (xField w) (yField w))
  | 0x2 => .ok (.andReg (xField w) (yField w))
  | 0x3 => .ok (.xorReg (xField w) (yField w))
  | 0x4 => .ok (.addReg (xField w) (yField w))
  | 0x5 => .ok (.subReg (xField w) (yField w))
  | 0x6 => .ok (.shrReg (xField w) (yField w))
  | 0x7 => .ok (.subnReg (xField w) (yField w))
  | 0xE => .ok (.shlReg (xField w) (yField w))
  | _ => .error (.unknownOpcode w)

/-- Family E: dispatched on the low byte (30_encoding.md R64). -/
def decodeFamilyE (w : Word) : Except DecodeError Instr :=
  if bits w 7 0 = 0x9E then .ok (.skp (xField w))
  else if bits w 7 0 = 0xA1 then .ok (.sknp (xField w))
  else .error (.unknownOpcode w)

/-- Family F: dispatched on the low byte (30_encoding.md R64). -/
def decodeFamilyF (w : Word) : Except DecodeError Instr :=
  if bits w 7 0 = 0x07 then .ok (.ldVxDT (xField w))
  else if bits w 7 0 = 0x0A then .ok (.ldVxK (xField w))
  else if bits w 7 0 = 0x15 then .ok (.ldDTVx (xField w))
  else if bits w 7 0 = 0x18 then .ok (.ldSTVx (xField w))
  else if bits w 7 0 = 0x1E then .ok (.addI (xField w))
  else if bits w 7 0 = 0x29 then .ok (.ldF (xField w))
  else if bits w 7 0 = 0x33 then .ok (.ldB (xField w))
  else if bits w 7 0 = 0x55 then .ok (.storeRegs (xField w))
  else if bits w 7 0 = 0x65 then .ok (.loadRegs (xField w))
  else .error (.unknownOpcode w)

/-- `Decode(op)`, total on all 65536 words (30_encoding.md R64, R70). -/
def decodeWord (w : Word) : Except DecodeError Instr :=
  match familyField w with
  | 0x0 => decodeFamily0 w
  | 0x1 => .ok (.jp (nnnField w))
  | 0x2 => .ok (.call (nnnField w))
  | 0x3 => .ok (.seImm (xField w) (kkField w))
  | 0x4 => .ok (.sneImm (xField w) (kkField w))
  | 0x5 => if bits w 3 0 = 0 then .ok (.seReg (xField w) (yField w)) else .error (.unknownOpcode w)
  | 0x6 => .ok (.ldImm (xField w) (kkField w))
  | 0x7 => .ok (.addImm (xField w) (kkField w))
  | 0x8 => decodeFamily8 w
  | 0x9 => if bits w 3 0 = 0 then .ok (.sneReg (xField w) (yField w)) else .error (.unknownOpcode w)
  | 0xA => .ok (.ldI (nnnField w))
  | 0xB => .ok (.jpV0 (nnnField w))
  | 0xC => .ok (.rnd (xField w) (kkField w))
  | 0xD => .ok (.drw (xField w) (yField w) (nField w))
  | 0xE => decodeFamilyE w
  | 0xF => decodeFamilyF w
  | _ => .error (.unknownOpcode w)

/-- The 16-bit word of two bytes, the byte at the lower address first: `256 * hi + lo` (20_memory.md R44). -/
def wordOfBytes (hi lo : Byte) : Word := BitVec.ofNat 16 (256 * hi.toNat + lo.toNat)

/-- The byte at the lower address, `op[15:8]` (20_memory.md R44). -/
def highByte (w : Word) : Byte := BitVec.ofNat 8 (bits w 15 8)

/-- The byte at the higher address, `op[7:0]` (20_memory.md R44). -/
def lowByte (w : Word) : Byte := BitVec.ofNat 8 (bits w 7 0)

/-- Decode the first instruction of a byte sequence: two bytes, big-endian (30_encoding.md R60), and the rest. -/
def decode : List Byte → Except DecodeError (Instr × List Byte)
  | hi :: lo :: rest => (decodeWord (wordOfBytes hi lo)).map (·, rest)
  | _ => .error .truncated

/-- The instruction the decoder reads from a table word of `nbits` bits: its bits above `nbits` are 0 and it is laid
out as the hardware stores it, the high byte first (30_encoding.md R60). -/
def decodeTableWord (nbits w : Nat) : Option Instr :=
  let op : Word := BitVec.ofNat 16 (w % 2 ^ nbits)
  match decode [highByte op, lowByte op] with
  | .ok (i, _) => some i
  | .error _ => none

/-- Format NNN: family, nnn (30_encoding.md R62). -/
def formatNNN (family : Nat) (nnn : Addr12) : Word := BitVec.ofNat 16 (4096 * family + nnn.toNat)

/-- Format XKK: family, x, kk; format X has a fixed low byte (30_encoding.md R62). -/
def formatXKK (family : Nat) (x : Nib) (kk : Byte) : Word := BitVec.ofNat 16 (4096 * family + 256 * x.val + kk.toNat)

/-- Format XYN: family, x, y, n; format XY has a fixed low nibble (30_encoding.md R62). -/
def formatXYN (family : Nat) (x y n : Nib) : Word :=
  BitVec.ofNat 16 (4096 * family + 256 * x.val + 16 * y.val + n.val)

/-- The word of an instruction (30_encoding.md R62, R65). -/
def encode : Instr → Word
  | .cls => 0x00E0
  | .ret => 0x00EE
  | .jp nnn => formatNNN 0x1 nnn
  | .call nnn => formatNNN 0x2 nnn
  | .seImm x kk => formatXKK 0x3 x kk
  | .sneImm x kk => formatXKK 0x4 x kk
  | .seReg x y => formatXYN 0x5 x y 0x0
  | .ldImm x kk => formatXKK 0x6 x kk
  | .addImm x kk => formatXKK 0x7 x kk
  | .ldReg x y => formatXYN 0x8 x y 0x0
  | .orReg x y => formatXYN 0x8 x y 0x1
  | .andReg x y => formatXYN 0x8 x y 0x2
  | .xorReg x y => formatXYN 0x8 x y 0x3
  | .addReg x y => formatXYN 0x8 x y 0x4
  | .subReg x y => formatXYN 0x8 x y 0x5
  | .shrReg x y => formatXYN 0x8 x y 0x6
  | .subnReg x y => formatXYN 0x8 x y 0x7
  | .shlReg x y => formatXYN 0x8 x y 0xE
  | .sneReg x y => formatXYN 0x9 x y 0x0
  | .ldI nnn => formatNNN 0xA nnn
  | .jpV0 nnn => formatNNN 0xB nnn
  | .rnd x kk => formatXKK 0xC x kk
  | .drw x y n => formatXYN 0xD x y n
  | .skp x => formatXKK 0xE x 0x9E
  | .sknp x => formatXKK 0xE x 0xA1
  | .ldVxDT x => formatXKK 0xF x 0x07
  | .ldVxK x => formatXKK 0xF x 0x0A
  | .ldDTVx x => formatXKK 0xF x 0x15
  | .ldSTVx x => formatXKK 0xF x 0x18
  | .addI x => formatXKK 0xF x 0x1E
  | .ldF x => formatXKK 0xF x 0x29
  | .ldB x => formatXKK 0xF x 0x33
  | .storeRegs x => formatXKK 0xF x 0x55
  | .loadRegs x => formatXKK 0xF x 0x65

/-- The two bytes of an instruction, in memory order (30_encoding.md R60). -/
def encodeBytes (i : Instr) : List Byte := [highByte (encode i), lowByte (encode i)]

end Sys2Proof
end

