-- ==== Sys2Proof/Machine/State.lean ====
section
/-! DEFINITION. The machine state as plain data: every element of 10_state.md R10, and the model's own fields that hold
the host's inputs and events. -/

namespace Sys2Proof.Machine

/-- The state of the interpreter's state machine (10_state.md R23). -/
inductive Mode where
  /-- "a single 'running' state cycling fetch, decode, execute". -/
  | running
  /-- The last instruction step was an Fx0A that found no key pressed. -/
  | awaitKey
  /-- An execution-time error was raised; absorbing until the next Load (60_exceptions.md R208). -/
  | halted
deriving DecidableEq, Repr

/-- The execution-time errors (10_state.md R23; 60_exceptions.md R200). -/
inductive ExecError where
  /-- The word decodes to Unknown (60_exceptions.md R201). -/
  | unknownOpcode (w : Word)
  /-- 2nnn with sp = 16 (60_exceptions.md R202). -/
  | stackOverflow
  /-- 00EE with sp = 0 (60_exceptions.md R203). -/
  | stackUnderflow
deriving DecidableEq, Repr

/-- The load-time error of the core (60_exceptions.md R204; 70_reset_and_hazards.md R232). -/
inductive LoadError where
  /-- The image has more than 3584 bytes. -/
  | romTooLarge
deriving DecidableEq, Repr

/-- The inputs of one cycle, all free (10_state.md R26). -/
structure CycleInputs where
  /-- Bit k = 1 when key k is reported pressed at this cycle's sample. -/
  keysIn : BitVec 16
  /-- The random byte of this cycle's instruction step. -/
  rnd : Byte
  /-- A timer tick is due in this cycle. -/
  tickDue : Bool
deriving DecidableEq, Repr

/-- The transitions the host starts (10_state.md R25, R28). -/
inductive HostEvent where
  /-- `Cycle(keys_in, rnd, tick_due)` (60_exceptions.md R211). -/
  | cycle (inputs : CycleInputs)
  /-- `RenderAck` (60_exceptions.md R217). -/
  | renderAck
  /-- `Load(rom)` (70_reset_and_hazards.md R230). -/
  | load (rom : List Byte)
  /-- `Shutdown` (60_exceptions.md R218). -/
  | shutdown
deriving DecidableEq, Repr

/-- `mem` (20_memory.md R40): the cells that differ from what Load leaves in a memory without a ROM, in strictly rising
address order (log 1), beside the parameter FONT (20_memory.md R55; log 2), which no transition writes. -/
structure Memory where
  /-- The 80 bytes of FONT. -/
  font : Vector Byte Config.fontLen
  /-- The listed cells. -/
  cells : List Host.Cell
deriving DecidableEq, Repr

/-- `disp`: 32 rows, top to bottom, of 64 one-bit cells, bit cx of a row its column cx (10_state.md R19). -/
abbrev Display := Vector (BitVec 64) 32

/-- The machine state (10_state.md R10). -/
structure State where
  /-- The 4096-byte memory (20_memory.md R40). -/
  mem : Memory
  /-- V0..VF (10_state.md R11); `V[15]` is also the flag VF (R12). -/
  V : Vector Byte 16
  /-- The index register (10_state.md R13). -/
  I : Word
  /-- The program counter (10_state.md R14). -/
  pc : Word
  /-- The call stack (10_state.md R15). -/
  stack : Vector Word 16
  /-- The number of saved entries, 0..16 (10_state.md R16). -/
  sp : Fin 17
  /-- The delay timer (10_state.md R17). -/
  dt : Byte
  /-- The sound timer (10_state.md R18). -/
  st : Byte
  /-- The display: 32 rows of 64 one-bit cells, bit cx of row cy is `disp[cx + 64*cy]` (10_state.md R19; log 9). -/
  disp : Display
  /-- The key flags: bit k is `keys[k]` (10_state.md R20). -/
  keys : BitVec 16
  /-- The word fetched last (10_state.md R21). -/
  ir : Word
  /-- The "needs redraw" flag (10_state.md R22). -/
  redraw : Bool
  /-- The run, wait or halt state (10_state.md R23). -/
  mode : Mode
  /-- The error of a halted machine (10_state.md R23). -/
  err : Option ExecError
  /-- MODEL'S OWN. The inputs of the cycle in progress (10_state.md R26; log 3). -/
  pins : CycleInputs
  /-- MODEL'S OWN. The host's events still to come, oldest first (log 4). -/
  events : List HostEvent
  /-- MODEL'S OWN. How many free draws the run has taken (log 3). -/
  draws : Nat
deriving DecidableEq, Repr

/-- Why a step gives no next state. -/
inductive Fault where
  /-- Raised by the host event Shutdown alone: the state is discarded (60_exceptions.md R218). Safe. -/
  | shutDown
deriving DecidableEq, Repr

/-- Why the model gives no meaning. -/
inductive Refusal where
  /-- Raised by no arm: every instruction has its meaning. Safe. -/
  | notModelled (mnemonic : String)
deriving DecidableEq, Repr

/-- The state after Load of the empty ROM, the only reset (10_state.md R30; 70_reset_and_hazards.md R230, R231). The
FONT is the default of R55 (log 2); the model's own fields are empty or 0 (logs 3, 4). -/
def State.reset : State where
  mem := ⟨Config.defaultFont, []⟩
  V := Vector.replicate 16 0
  I := 0
  pc := 0x200
  stack := Vector.replicate 16 0
  sp := 0
  dt := 0
  st := 0
  disp := Vector.replicate 32 0
  keys := 0
  ir := 0
  redraw := false
  mode := .running
  err := none
  pins := ⟨0, 0, false⟩
  events := []
  draws := 0

end Sys2Proof.Machine
end

