-- ==== Sys2Proof/Machine/Ops.lean ====
section
/-! DEFINITION. The named operations over memory, registers and the display, and the error entry. Every meaning goes
through these. -/

namespace Sys2Proof.Machine

/-! ### Memory -/

/-- What an unlisted address reads as: the contents Load leaves where the ROM does not reach, FONT in
`[0x000, 0x050)` and 0 elsewhere (10_state.md R30). -/
def Memory.unlisted (m : Memory) (a : Nat) : Byte :=
  if h : a < Config.fontLen then m.font[a] else 0#8

/-- The byte a list of cells holds at `a`, or `d` where the list has none. -/
def lookupCell (a : Nat) (d : Byte) : List Host.Cell → Byte
  | [] => d
  | (b, v) :: t => if b = a then v else lookupCell a d t

/-- `MemRead(a, 1) = mem[a mod 4096]` (20_memory.md R42, R43). -/
def Memory.read (m : Memory) (a : Nat) : Byte :=
  lookupCell (a % Config.memSize) (m.unlisted (a % Config.memSize)) m.cells

/-- `MemRead(a, 2) = 256 * mem[a mod 4096] + mem[(a + 1) mod 4096]`, fetch only (20_memory.md R43, R44). -/
def Memory.readWord (m : Memory) (a : Nat) : Word := wordOfBytes (m.read a) (m.read (a + 1))

/-- Put a cell into a rising list, replacing the one at its address. -/
def insertCell (a : Nat) (v : Byte) : List Host.Cell → List Host.Cell
  | [] => [(a, v)]
  | (b, w) :: t =>
    if a < b then (a, v) :: (b, w) :: t
    else if a = b then (a, v) :: t
    else (b, w) :: insertCell a v t

/-- Take every cell at `a` out of a list. -/
def eraseCell (a : Nat) : List Host.Cell → List Host.Cell
  | [] => []
  | (b, w) :: t => if b = a then eraseCell a t else (b, w) :: eraseCell a t

/-- `MemWrite(a, 1, v)`: `mem[a mod 4096] <- v` (20_memory.md R43). A value that an unlisted address reads as takes the
cell out, so that the list stays canonical (log 1). -/
def Memory.write (m : Memory) (a : Nat) (v : Byte) : Memory :=
  let k := a % Config.memSize
  { m with cells := if v = m.unlisted k then eraseCell k m.cells else insertCell k v m.cells }

/-- Byte writes at ascending addresses from `a` (20_memory.md R46). -/
def Memory.writeBytes (m : Memory) (a : Nat) : List Byte → Memory
  | [] => m
  | v :: vs => (m.write a v).writeBytes (a + 1) vs

/-- Every cell from address `lo` on is listed in rising order, below 4096, with a value an unlisted address does not
read as. -/
def Memory.cellsWf (m : Memory) (lo : Nat) : List Host.Cell → Bool
  | [] => true
  | (a, v) :: t =>
    decide (lo ≤ a) && decide (a < Config.memSize) && decide (v ≠ m.unlisted a) && m.cellsWf (a + 1) t

/-- The canonical form of memory (log 1). -/
def Memory.wf (m : Memory) : Bool := m.cellsWf 0 m.cells

/-- The cells of an image laid out from address `a`: zeros are what memory holds already (70_reset_and_hazards.md
R230: "memory zeroed"). -/
def imageCells (a : Nat) : List Byte → List Host.Cell
  | [] => []
  | v :: vs => if v = 0#8 then imageCells (a + 1) vs else (a, v) :: imageCells (a + 1) vs

/-! ### Registers -/

/-- `V[i]` (10_state.md R11). -/
def State.getV (s : State) (i : Nib) : Byte := s.V[i.val]

/-- `V[i] <- v` (10_state.md R11). -/
def State.setV (s : State) (i : Nib) (v : Byte) : State := { s with V := s.V.set i.val v }

/-- The index of VF, the flag (10_state.md R12). -/
abbrev flagReg : Nib := 15

/-- `V[i] <- MemRead(base + i, 1)` for `i = 0` to `k - 1`, ascending (42_index_memory.md R146). -/
def loadFrom (m : Memory) (base : Nat) (regs : Vector Byte 16) : Nat → Vector Byte 16
  | 0 => regs
  | k + 1 => (loadFrom m base regs k).setIfInBounds k (m.read (base + k))

/-- `I <- v` (10_state.md R13). -/
def State.setI (s : State) (v : Word) : State := { s with I := v }

/-- `pc <- target`, 16 bits (10_state.md R14). -/
def State.setPc (s : State) (target : Word) : State := { s with pc := target }

/-- `pc <- pc + 2`, mod 65536 (30_encoding.md R71; 10_state.md R14). -/
def State.advance (s : State) : State := s.setPc (s.pc + 2)

/-- A skip: `pc + 4` if the condition holds, else `pc + 2`; the skipped word is not looked at (30_encoding.md R71). -/
def State.skipIf (s : State) (c : Bool) : State := s.setPc (if c then s.pc + 4 else s.pc + 2)

/-- Replace the memory. -/
def State.setMem (s : State) (m : Memory) : State := { s with mem := m }

/-- `dt <- v` (10_state.md R17). -/
def State.setDt (s : State) (v : Byte) : State := { s with dt := v }

/-- `st <- v` (10_state.md R18). -/
def State.setSt (s : State) (v : Byte) : State := { s with st := v }

/-- `keys <- k` (10_state.md R20). -/
def State.setKeys (s : State) (k : BitVec 16) : State := { s with keys := k }

/-- `mode <- m` (10_state.md R23). -/
def State.setMode (s : State) (m : Mode) : State := { s with mode := m }

/-- New display contents, with `redraw <- 1` (43_display.md R161, R162). -/
def State.setDisp (s : State) (d : Display) : State := { s with disp := d, redraw := true }

/-- `ir <- w`, at the fetch (10_state.md R21). -/
def State.setIr (s : State) (w : Word) : State := { s with ir := w }

/-- The inputs of the cycle that begins (10_state.md R26; log 3). -/
def State.setPins (s : State) (p : CycleInputs) : State := { s with pins := p }

/-- The word at `pc` (60_exceptions.md R219). -/
def State.fetchWord (s : State) : Word := s.mem.readWord s.pc.toNat

/-! ### The call stack -/

/-- `stack[sp] <- pc; sp <- sp + 1`, when fewer than 16 entries are saved (40_control_flow.md R103). -/
def State.push (s : State) (v : Word) (h : s.sp.val < 16) : State :=
  { s with stack := s.stack.set s.sp.val v, sp := ⟨s.sp.val + 1, by omega⟩ }

/-- `stack[sp - 1]`, the top entry, when one is saved (40_control_flow.md R101). -/
def State.top (s : State) (h : 0 < s.sp.val) : Word := s.stack[s.sp.val - 1]'(by have := s.sp.isLt; omega)

/-- `sp <- sp - 1`; the entry stays (10_state.md R15). -/
def State.drop (s : State) (h : 0 < s.sp.val) : State :=
  { s with sp := ⟨s.sp.val - 1, by have := s.sp.isLt; omega⟩ }

/-! ### Error entry -/

/-- `raise E`: the machine's only trap. `mode <- HALTED`, `err <- E`, nothing else is written, and `pc` stays at the
failing instruction (60_exceptions.md R207). There is no return from it (R208). -/
def State.raise (s : State) (e : ExecError) : State := { s with mode := .halted, err := some e }

/-! ### Display -/

/-- `Cell(cx, cy) = cx + 64 * cy` (43_display.md R160). -/
def cell (cx cy : Nat) : Nat := cx + 64 * cy

/-- `disp[c]`: the display is row-major, cells 0..63 are row 0 (43_display.md R160). -/
def getCell (d : Display) (c : Nat) : Bool := d[c / 64 % 32].getLsbD (c % 64)

/-- `disp[c] <- disp[c] ^ 1` (43_display.md R162). -/
def toggleCell (d : Display) (c : Nat) : Display :=
  d.set (c / 64 % 32) (d[c / 64 % 32] ^^^ BitVec.twoPow 64 (c % 64))

/-- The display with every cell 0 (43_display.md R161). -/
def clearDisplay : Display := Vector.replicate 32 0

/-- The cell of sprite column `col` and row `row` at the anchor: both coordinates wrap (43_display.md R162). -/
def spriteCell (vx vy row col : Nat) : Nat := cell ((vx + col) % 64) ((vy + row) % 32)

/-- The bit of sprite column `col` of a row byte: column 0 is bit 7 (43_display.md R162; 92_eei_decisions.md D10). -/
def spriteBit (b : Byte) (col : Nat) : Bool := b.getLsbD (7 - col)

/-- One sprite bit: where it is 1, a lit cell sets the flag, and the cell is toggled (43_display.md R162). -/
def drawPixel (vx vy row : Nat) (b : Byte) (acc : Display × Bool) (col : Nat) : Display × Bool :=
  if spriteBit b col then
    (toggleCell acc.1 (spriteCell vx vy row col), acc.2 || getCell acc.1 (spriteCell vx vy row col))
  else acc

/-- One sprite row: its 8 columns in order (43_display.md R162). -/
def drawRow (m : Memory) (base vx vy : Nat) (acc : Display × Bool) (row : Nat) : Display × Bool :=
  (List.range 8).foldl (drawPixel vx vy row (m.read (base + row))) acc

/-- The whole blit: `n` rows over the display with the flag at 0; the answer is the display and the collision flag
(43_display.md R162). -/
def drawSprite (m : Memory) (base vx vy n : Nat) (d : Display) : Display × Bool :=
  (List.range n).foldl (drawRow m base vx vy) (d, false)

/-! ### Keys and timers -/

/-- The least k with `keys[k] = 1` (44_keypad_timers.md R173). -/
def firstKey (keys : BitVec 16) : Option Nat := (List.range 16).find? (keys.getLsbD ·)

/-- `keys[k] <- 0` (44_keypad_timers.md R173). -/
def clearKey (keys : BitVec 16) (k : Nat) : BitVec 16 := keys &&& ~~~BitVec.twoPow 16 k

/-- A timer's count after a cycle: one less when a tick is due, saturating at 0 (60_exceptions.md R212). -/
def decayWhen (due : Bool) (v : Byte) : Byte := if v = 0#8 then 0#8 else if due then v - 1#8 else v

end Sys2Proof.Machine
end

