-- ==== Sys2Proof/Machine/Operands.lean ====
section
/-! DEFINITION. The operand forms: registers and immediates are read by `State.getV` and from the instruction; these
are the computed ones. -/

namespace Sys2Proof.Machine

/-- The address `I + i` before its reduction mod 4096 by the memory, the machine's one addressing mode
(42_index_memory.md R140). -/
def State.effAddr (s : State) (i : Nat) : Nat := s.I.toNat + i

/-- The key that `V[x]` selects: its low nibble (44_keypad_timers.md R170). -/
def State.keyIndex (s : State) (x : Nib) : Nat := (s.getV x).toNat % 16

/-- `keys[V[x] mod 16] = 1` (44_keypad_timers.md R170, R171). -/
def State.keyDown (s : State) (x : Nib) : Bool := s.keys.getLsbD (s.keyIndex x)

/-- `zext_16(nnn)` (30_encoding.md R63). -/
def zextAddr (nnn : Addr12) : Word := nnn.setWidth 16

/-- `zext_16(v)` (30_encoding.md R63). -/
def zextByte (v : Byte) : Word := v.setWidth 16

/-- `V[0]`..`V[x]` in order, the bytes Fx55 stores (42_index_memory.md R145). -/
def State.regsUpTo (s : State) (x : Nib) : List Byte := s.V.toList.take (x.val + 1)

/-- The hundreds, tens and ones digits of a byte (42_index_memory.md R144). -/
def bcdDigits (v : Byte) : List Byte :=
  [BitVec.ofNat 8 (v.toNat / 100), BitVec.ofNat 8 (v.toNat / 10 % 10), BitVec.ofNat 8 (v.toNat % 10)]

/-- `V[x] * 5`, the address of a glyph, exact in 16 bits (42_index_memory.md R143). -/
def glyphAddr (v : Byte) : Word := BitVec.ofNat 16 (v.toNat * 5)

end Sys2Proof.Machine
end

