-- ==== Sys2Proof/Machine/Flags.lean ====
section
/-! DEFINITION. The flag computations (VF is the only flag, 10_state.md R12) and the write-back that puts the flag last
(41_load_alu.md R120). -/

namespace Sys2Proof.Machine

/-- A flag is written as 0 or 1 (10_state.md R12). -/
def flagByte (b : Bool) : Byte := if b then 1 else 0

/-- The carry of 8xy4, from the sum before truncation (41_load_alu.md R127). -/
def carryFlag (a b : Byte) : Byte := flagByte (decide (a.toNat + b.toNat > 255))

/-- The strict comparison of 8xy5 and 8xy7: 1 if `a > b`, 0 also when equal (41_load_alu.md R128, R130). -/
def greaterFlag (a b : Byte) : Byte := flagByte (decide (a.toNat > b.toNat))

/-- The bit 8xy6 shifts out: bit 0 of the source before the shift (41_load_alu.md R129). -/
def shiftedOutLow (b : Byte) : Byte := flagByte (b.getLsbD 0)

/-- The bit 8xyE shifts out: bit 7 of the source before the shift (41_load_alu.md R131). -/
def shiftedOutHigh (b : Byte) : Byte := flagByte (b.getLsbD 7)

/-- The result to `V[x]`, then the flag to VF, which wins when `x = 0xF` (41_load_alu.md R120; the spec's decision
92_eei_decisions.md D4). -/
def State.setResultAndFlag (s : State) (x : Nib) (result flag : Byte) : State :=
  (s.setV x result).setV flagReg flag

end Sys2Proof.Machine
end

