-- ==== Sys2Proof/Machine/Control.lean ====
section
/-! DEFINITION. Control transfer: return, jumps, call and the register skips (40_control_flow.md). -/

namespace Sys2Proof.Machine

open Host (Outcome)

/-- `00EE` RET: pop, then `pc` is the entry plus 2; on an empty stack StackUnderflow (40_control_flow.md R101). -/
def execRet (s : State) : Outcome State Fault Refusal :=
  if h : 0 < s.sp.val then .next ((s.drop h).setPc (s.top h + 2)) else .next (s.raise .stackUnderflow)

/-- `1nnn` JP nnn (40_control_flow.md R102). -/
def execJp (nnn : Addr12) (s : State) : Outcome State Fault Refusal := .next (s.setPc (zextAddr nnn))

/-- `2nnn` CALL nnn: save the CALL's own address; with 16 entries saved StackOverflow (40_control_flow.md R103). -/
def execCall (nnn : Addr12) (s : State) : Outcome State Fault Refusal :=
  if h : s.sp.val < 16 then .next ((s.push s.pc h).setPc (zextAddr nnn)) else .next (s.raise .stackOverflow)

/-- `Bnnn` JP V0, nnn: the register is always V0 (40_control_flow.md R104). -/
def execJpV0 (nnn : Addr12) (s : State) : Outcome State Fault Refusal :=
  .next (s.setPc (zextAddr nnn + zextByte (s.getV 0)))

/-- `3xkk` SE Vx, kk (40_control_flow.md R105). -/
def execSeImm (x : Nib) (kk : Byte) (s : State) : Outcome State Fault Refusal := .next (s.skipIf (s.getV x == kk))

/-- `4xkk` SNE Vx, kk (40_control_flow.md R106). -/
def execSneImm (x : Nib) (kk : Byte) (s : State) : Outcome State Fault Refusal := .next (s.skipIf (s.getV x != kk))

/-- `5xy0` SE Vx, Vy (40_control_flow.md R107). -/
def execSeReg (x y : Nib) (s : State) : Outcome State Fault Refusal := .next (s.skipIf (s.getV x == s.getV y))

/-- `9xy0` SNE Vx, Vy (40_control_flow.md R108). -/
def execSneReg (x y : Nib) (s : State) : Outcome State Fault Refusal := .next (s.skipIf (s.getV x != s.getV y))

end Sys2Proof.Machine
end

