-- ==== Sys2Proof/Machine/Display.lean ====
section
/-! DEFINITION. The display instructions (43_display.md). -/

namespace Sys2Proof.Machine

open Host (Outcome)

/-- `00E0` CLS: every cell 0, `redraw` set, VF untouched (43_display.md R161). -/
def execCls (s : State) : Outcome State Fault Refusal := .next (s.setDisp clearDisplay).advance

/-- The display and the collision flag Dxyn computes from the state before it: anchor (Vx, Vy), sprite at I, `n` rows
(43_display.md R162). -/
def State.sprite (s : State) (x y n : Nib) : Display × Bool :=
  drawSprite s.mem s.I.toNat (s.getV x).toNat (s.getV y).toNat n.val s.disp

/-- `Dxyn` DRW Vx, Vy, n: XOR the sprite into the display, VF is the collision flag, `redraw` set
(43_display.md R162). -/
def execDrw (x y n : Nib) (s : State) : Outcome State Fault Refusal :=
  .next ((s.setDisp (s.sprite x y n).1).setV flagReg (flagByte (s.sprite x y n).2)).advance

end Sys2Proof.Machine
end

