-- ==== Sys2Proof/Machine/IndexMemory.lean ====
section
/-! DEFINITION. The index register, the font address, BCD, register store and load (42_index_memory.md). `I` is never
changed by a memory access (R140). -/

namespace Sys2Proof.Machine

open Host (Outcome)

/-- `Annn` LD I, nnn (42_index_memory.md R141). -/
def execLdI (nnn : Addr12) (s : State) : Outcome State Fault Refusal := .next (s.setI (zextAddr nnn)).advance

/-- `Fx1E` ADD I, Vx: mod 65536, no flag (42_index_memory.md R142). -/
def execAddI (x : Nib) (s : State) : Outcome State Fault Refusal := .next (s.setI (s.I + zextByte (s.getV x))).advance

/-- `Fx29` LD F, Vx: the whole byte times 5 (42_index_memory.md R143). -/
def execLdF (x : Nib) (s : State) : Outcome State Fault Refusal := .next (s.setI (glyphAddr (s.getV x))).advance

/-- `Fx33` LD B, Vx: hundreds at I, tens at I+1, ones at I+2 (42_index_memory.md R144). -/
def execLdB (x : Nib) (s : State) : Outcome State Fault Refusal :=
  .next (s.setMem (s.mem.writeBytes (s.effAddr 0) (bcdDigits (s.getV x)))).advance

/-- `Fx55` LD [I], Vx: V0..Vx to I..I+x (42_index_memory.md R145). -/
def execStoreRegs (x : Nib) (s : State) : Outcome State Fault Refusal :=
  .next (s.setMem (s.mem.writeBytes (s.effAddr 0) (s.regsUpTo x))).advance

/-- `Fx65` LD Vx, [I]: I..I+x to V0..Vx (42_index_memory.md R146). -/
def execLoadRegs (x : Nib) (s : State) : Outcome State Fault Refusal :=
  .next ({ s with V := loadFrom s.mem (s.effAddr 0) s.V (x.val + 1) } : State).advance

end Sys2Proof.Machine
end

