-- ==== Sys2Proof/Machine/KeypadTimers.lean ====
section
/-! DEFINITION. The keypad and timer instructions (44_keypad_timers.md). -/

namespace Sys2Proof.Machine

open Host (Outcome)

/-- `Ex9E` SKP Vx: the keys are not consumed (44_keypad_timers.md R171). -/
def execSkp (x : Nib) (s : State) : Outcome State Fault Refusal := .next (s.skipIf (s.keyDown x))

/-- `ExA1` SKNP Vx (44_keypad_timers.md R172). -/
def execSknp (x : Nib) (s : State) : Outcome State Fault Refusal := .next (s.skipIf (!s.keyDown x))

/-- `Fx07` LD Vx, DT (44_keypad_timers.md R174). -/
def execLdVxDT (x : Nib) (s : State) : Outcome State Fault Refusal := .next (s.setV x s.dt).advance

/-- `Fx0A` LD Vx, K: the lowest pressed key, whose flag is cleared; with none pressed `pc` is held and the same
instruction is fetched again (44_keypad_timers.md R173, R177). -/
def execLdVxK (x : Nib) (s : State) : Outcome State Fault Refusal :=
  match firstKey s.keys with
  | some k => .next (((s.setV x (BitVec.ofNat 8 k)).setKeys (clearKey s.keys k)).setMode .running).advance
  | none => .next (s.setMode .awaitKey)

/-- `Fx15` LD DT, Vx (44_keypad_timers.md R175). -/
def execLdDTVx (x : Nib) (s : State) : Outcome State Fault Refusal := .next (s.setDt (s.getV x)).advance

/-- `Fx18` LD ST, Vx (44_keypad_timers.md R176). -/
def execLdSTVx (x : Nib) (s : State) : Outcome State Fault Refusal := .next (s.setSt (s.getV x)).advance

end Sys2Proof.Machine
end

