-- ==== Sys2Proof/Machine/LoadAlu.lean ====
section
/-! DEFINITION. Register loads, arithmetic, logic, shifts and random (41_load_alu.md). Operands are read from the state
before the instruction; byte arithmetic is mod 256 (R133). -/

namespace Sys2Proof.Machine

open Host (Outcome)

/-- `6xkk` LD Vx, kk (41_load_alu.md R121). -/
def execLdImm (x : Nib) (kk : Byte) (s : State) : Outcome State Fault Refusal := .next (s.setV x kk).advance

/-- `7xkk` ADD Vx, kk: no flag (41_load_alu.md R122). -/
def execAddImm (x : Nib) (kk : Byte) (s : State) : Outcome State Fault Refusal :=
  .next (s.setV x (s.getV x + kk)).advance

/-- `8xy0` LD Vx, Vy (41_load_alu.md R123). -/
def execLdReg (x y : Nib) (s : State) : Outcome State Fault Refusal := .next (s.setV x (s.getV y)).advance

/-- `8xy1` OR Vx, Vy: VF is not reset (41_load_alu.md R124). -/
def execOrReg (x y : Nib) (s : State) : Outcome State Fault Refusal :=
  .next (s.setV x (s.getV x ||| s.getV y)).advance

/-- `8xy2` AND Vx, Vy (41_load_alu.md R125). -/
def execAndReg (x y : Nib) (s : State) : Outcome State Fault Refusal :=
  .next (s.setV x (s.getV x &&& s.getV y)).advance

/-- `8xy3` XOR Vx, Vy (41_load_alu.md R126). -/
def execXorReg (x y : Nib) (s : State) : Outcome State Fault Refusal :=
  .next (s.setV x (s.getV x ^^^ s.getV y)).advance

/-- `8xy4` ADD Vx, Vy: VF is the carry (41_load_alu.md R127). -/
def execAddReg (x y : Nib) (s : State) : Outcome State Fault Refusal :=
  .next (s.setResultAndFlag x (s.getV x + s.getV y) (carryFlag (s.getV x) (s.getV y))).advance

/-- `8xy5` SUB Vx, Vy: VF is 1 exactly when Vx > Vy (41_load_alu.md R128). -/
def execSubReg (x y : Nib) (s : State) : Outcome State Fault Refusal :=
  .next (s.setResultAndFlag x (s.getV x - s.getV y) (greaterFlag (s.getV x) (s.getV y))).advance

/-- `8xy6` SHR Vx, Vy: the source is Vy (41_load_alu.md R129). -/
def execShrReg (x y : Nib) (s : State) : Outcome State Fault Refusal :=
  .next (s.setResultAndFlag x (s.getV y >>> 1) (shiftedOutLow (s.getV y))).advance

/-- `8xy7` SUBN Vx, Vy: VF is 1 exactly when Vy > Vx (41_load_alu.md R130). -/
def execSubnReg (x y : Nib) (s : State) : Outcome State Fault Refusal :=
  .next (s.setResultAndFlag x (s.getV y - s.getV x) (greaterFlag (s.getV y) (s.getV x))).advance

/-- `8xyE` SHL Vx, Vy: the source is Vy (41_load_alu.md R131). -/
def execShlReg (x y : Nib) (s : State) : Outcome State Fault Refusal :=
  .next (s.setResultAndFlag x (s.getV y <<< 1) (shiftedOutHigh (s.getV y))).advance

/-- `Cxkk` RND Vx, kk: the random byte is this cycle's free input (41_load_alu.md R132; log 3). -/
def execRnd (x : Nib) (kk : Byte) (s : State) : Outcome State Fault Refusal :=
  .next (s.setV x (s.pins.rnd &&& kk)).advance

end Sys2Proof.Machine
end

