-- ==== Sys2Proof/Machine/Cycle.lean ====
section
/-! DEFINITION. The instruction step, the units that run beside it, the cycle, and the host events
(60_exceptions.md R211 to R219; 70_reset_and_hazards.md R230 to R232). -/

namespace Sys2Proof.Machine

open Host (Outcome)

/-! ### Timer unit, keypad synchronizer, render handshake -/

/-- What the timer unit does at the end of a cycle: `TimerTick` on both counters when one is due
(60_exceptions.md R211, R212). -/
def State.timerPhase (due : Bool) (s : State) : State := { s with dt := decayWhen due s.dt, st := decayWhen due s.st }

/-- `TimerTick = TickDelay ; TickSound` (60_exceptions.md R212). -/
def State.timerTick (s : State) : State := s.timerPhase true

/-- `KeySample(keys_in)`: all 16 flags at once (60_exceptions.md R215). -/
def State.keySample (keysIn : BitVec 16) (s : State) : State := s.setKeys keysIn

/-- `RenderAck`: `redraw <- 0` (60_exceptions.md R217). -/
def State.renderAck (s : State) : State := { s with redraw := false }

/-! ### Outputs -/

/-- The tone output: 1 exactly when `st > 0` (60_exceptions.md R214). -/
def State.tone (s : State) : Bool := decide (s.st.toNat > 0)

/-- The events of the audio collaborator (60_exceptions.md R214). -/
inductive ToneEvent where
  /-- "start tone": `tone` goes 0 to 1. -/
  | startTone
  /-- "stop tone": `tone` goes 1 to 0. -/
  | stopTone
deriving DecidableEq, Repr

/-- The edge of `tone` between two states (60_exceptions.md R214). -/
def toneEvent (before after : State) : Option ToneEvent :=
  match before.tone, after.tone with
  | false, true => some .startTone
  | true, false => some .stopTone
  | _, _ => none

/-- What a cycle reports: `redraw` and the status (60_exceptions.md R211; 10_state.md R27). -/
structure Report where
  redraw : Bool
  mode : Mode
  err : Option ExecError
deriving DecidableEq, Repr

/-- The report of a state. -/
def State.report (s : State) : Report := ⟨s.redraw, s.mode, s.err⟩

/-- The `disp` read port: the cell of column cx and row cy (20_memory.md R54; 10_state.md R19). -/
def State.pixel (s : State) (cx cy : Nat) : Bool := getCell s.disp (cell cx cy)

/-! ### The instruction step and the cycle -/

/-- `InstrStep(rnd)`: fetch into `ir`, decode, execute, or raise UnknownOpcode; `rnd` is `pins.rnd`
(60_exceptions.md R219, R201). -/
def instrStep (s : State) : Outcome State Fault Refusal :=
  match decodeWord s.fetchWord with
  | .ok i => exec i (s.setIr s.fetchWord)
  | .error _ => .next ((s.setIr s.fetchWord).raise (.unknownOpcode s.fetchWord))

/-- The rest of the cycle: KeySample, then TimerTick when due; neither runs after an error (60_exceptions.md R211,
R207). -/
def State.endCycle (inputs : CycleInputs) (s : State) : State :=
  if s.mode = .halted then s else (s.keySample inputs.keysIn).timerPhase inputs.tickDue

/-- An outcome's next state, changed by `f`. -/
def mapNext (f : State → State) : Outcome State Fault Refusal → Outcome State Fault Refusal
  | .next s => .next (f s)
  | .fault r => .fault r
  | .refused r => .refused r

/-- `Cycle(keys_in, rnd, tick_due)`; in mode HALTED nothing changes (60_exceptions.md R211, R208). -/
def cycle (inputs : CycleInputs) (s : State) : Outcome State Fault Refusal :=
  if s.mode = .halted then .next s else mapNext (State.endCycle inputs) (instrStep (s.setPins inputs))

/-! ### Load -/

/-- The state Load creates for a machine with the given FONT (70_reset_and_hazards.md R230; 10_state.md R30). -/
def loadedState (font : Vector Byte Config.fontLen) (rom : List Byte) : State :=
  { State.reset with mem := ⟨font, imageCells Config.progBase rom⟩ }

/-- `Load(rom)` on a machine: a new run, or RomTooLarge and nothing changes (70_reset_and_hazards.md R230 to R232). The
host's own events and draws go on. -/
def loadRom (rom : List Byte) (s : State) : Except LoadError State :=
  if romFits rom then .ok { loadedState s.mem.font rom with events := s.events, draws := s.draws }
  else .error .romTooLarge

/-! ### Host events -/

/-- What the host does next: the oldest event, or a cycle with free inputs (10_state.md R26; logs 3, 4). -/
def State.nextEvent (s : State) : HostEvent :=
  match s.events with
  | e :: _ => e
  | [] => .cycle ⟨Config.freeKeysIn s.draws, Config.freeRnd s.draws, Config.freeTickDue s.draws⟩

/-- The state with that event taken. Before a freely drawn cycle the host may have acknowledged the frame
(60_exceptions.md R217; log 3). -/
def State.takeEvent (s : State) : State :=
  match s.events with
  | _ :: es => { s with events := es }
  | [] => { s with draws := s.draws + 1, redraw := s.redraw && !Config.freeRenderAck s.draws }

/-- One transition of the machine (10_state.md R25). A failed Load leaves the state as it was (R232); Shutdown discards
the state, so there is no next one (60_exceptions.md R218). -/
def runEvent (e : HostEvent) (s : State) : Outcome State Fault Refusal :=
  match e with
  | .cycle inputs => cycle inputs s
  | .renderAck => .next s.renderAck
  | .load rom => match loadRom rom s with
    | .ok t => .next t
    | .error _ => .next s
  | .shutdown => .fault .shutDown

/-- The event is a cycle. -/
def HostEvent.isCycle : HostEvent → Bool
  | .cycle _ => true
  | _ => false

/-- `s` with a word of `nbits` bits stored where the next cycle fetches, the host's next event a cycle, and the machine
not halted, so that the very next step runs that word. It stands for the Load of a program (log 7). -/
def placeFetchWord (s : State) (nbits w : Nat) : State :=
  { s with
    mem := s.mem.writeBytes s.pc.toNat
      [highByte (BitVec.ofNat 16 (w % 2 ^ nbits)), lowByte (BitVec.ofNat 16 (w % 2 ^ nbits))]
    mode := if s.mode = .halted then .running else s.mode
    err := if s.mode = .halted then none else s.err
    events := s.events.dropWhile (!·.isCycle) }

end Sys2Proof.Machine
end

