-- ==== Sys2Proof/Machine/Step.lean ====
section
/-! DEFINITION. One step of the machine: the host's next event. -/

namespace Sys2Proof.Machine

/-- One step: one transition the host starts, normally a Cycle (10_state.md R25, R28; 60_exceptions.md R211). -/
def step (s : State) : Host.Outcome State Fault Refusal := runEvent s.nextEvent s.takeEvent

/-- `s` with a word stored where `step` fetches next, so that `step` runs exactly it. -/
def State.withFetchWord (s : State) (nbits w : Nat) : State := placeFetchWord s nbits w

end Sys2Proof.Machine
end

