-- ==== Sys2Proof/Safety.lean ====
section
/-! DEFINITION. The terms claims are stated in: what stays the same between two states, what an instruction may write,
the invariant of every run, the cells a sprite covers, and a run without an error. -/

namespace Sys2Proof.Machine

/-! ### Frames -/

/-- The elements of the state (10_state.md R10, and the model's own `pins`, `events`, `draws`). -/
inductive Elem where
  | mem | V | I | pc | stack | sp | dt | st | disp | keys | ir | redraw | mode | err | pins | events | draws
deriving DecidableEq, Repr

/-- The element reads the same in both states: memory byte by byte, the registers one by one. -/
def SameOn (s t : State) : Elem → Prop
  | .mem => ∀ a, t.mem.read a = s.mem.read a
  | .V => ∀ r, t.getV r = s.getV r
  | .I => t.I = s.I
  | .pc => t.pc = s.pc
  | .stack => t.stack = s.stack
  | .sp => t.sp = s.sp
  | .dt => t.dt = s.dt
  | .st => t.st = s.st
  | .disp => t.disp = s.disp
  | .keys => t.keys = s.keys
  | .ir => t.ir = s.ir
  | .redraw => t.redraw = s.redraw
  | .mode => t.mode = s.mode
  | .err => t.err = s.err
  | .pins => t.pins = s.pins
  | .events => t.events = s.events
  | .draws => t.draws = s.draws

/-- Every element outside the list reads the same in both states. -/
def SameExcept (es : List Elem) (s t : State) : Prop := ∀ e, e ∉ es → SameOn s t e

/-- From `s` to `t` the register `x` becomes `v`, `pc` advances by 2, and nothing else changes. -/
def WritesReg (s t : State) (x : Nib) (v : Byte) : Prop :=
  t.getV x = v ∧ (∀ r, r ≠ x → t.getV r = s.getV r) ∧ t.pc = s.pc + 2 ∧ SameExcept [.V, .pc] s t

/-- From `s` to `t` VF becomes `f`, the register `x` becomes `v` unless it is VF, `pc` advances by 2, and nothing else
changes. -/
def WritesRegAndFlag (s t : State) (x : Nib) (v f : Byte) : Prop :=
  t.getV 15 = f ∧ (x ≠ 15 → t.getV x = v) ∧ (∀ r, r ≠ x → r ≠ 15 → t.getV r = s.getV r) ∧ t.pc = s.pc + 2 ∧
    SameExcept [.V, .pc] s t

/-- From `s` to `t` only `pc` changes, and becomes `target`. -/
def MovesPc (s t : State) (target : Word) : Prop := t.pc = target ∧ SameExcept [.pc] s t

end Sys2Proof.Machine

namespace Sys2Proof

open Sys2Proof.Machine

/-! ### What an instruction may write -/

/-- The elements an instruction's rule writes, `mode` and `err` where it can raise an error (40_control_flow.md R100 to
44_keypad_timers.md R177). -/
def Instr.writes : Instr → List Elem
  | .cls => [.disp, .redraw, .pc]
  | .ret => [.sp, .pc, .mode, .err]
  | .call _ => [.stack, .sp, .pc, .mode, .err]
  | .jp _ | .jpV0 _ | .seImm _ _ | .sneImm _ _ | .seReg _ _ | .sneReg _ _ | .skp _ | .sknp _ => [.pc]
  | .ldImm _ _ | .addImm _ _ | .ldReg _ _ | .orReg _ _ | .andReg _ _ | .xorReg _ _ | .addReg _ _ | .subReg _ _
  | .shrReg _ _ | .subnReg _ _ | .shlReg _ _ | .rnd _ _ | .ldVxDT _ | .loadRegs _ => [.V, .pc]
  | .ldI _ | .addI _ | .ldF _ => [.I, .pc]
  | .drw _ _ _ => [.V, .disp, .redraw, .pc]
  | .ldVxK _ => [.V, .keys, .mode, .pc]
  | .ldDTVx _ => [.dt, .pc]
  | .ldSTVx _ => [.st, .pc]
  | .ldB _ | .storeRegs _ => [.mem, .pc]

/-- The six flag writers (41_load_alu.md R120; 10_state.md R12). -/
def Instr.writesFlag : Instr → Bool
  | .addReg _ _ | .subReg _ _ | .shrReg _ _ | .subnReg _ _ | .shlReg _ _ | .drw _ _ _ => true
  | _ => false

/-- The instruction names the register as its destination Vx, or its range V0..Vx reaches it (10_state.md R11). -/
def Instr.namesDest (r : Nib) : Instr → Bool
  | .ldImm x _ | .addImm x _ | .rnd x _ | .ldVxDT x | .ldVxK x => x == r
  | .ldReg x _ | .orReg x _ | .andReg x _ | .xorReg x _ | .addReg x _ | .subReg x _ | .shrReg x _ | .subnReg x _
  | .shlReg x _ => x == r
  | .loadRegs x => decide (r.val ≤ x.val)
  | _ => false

/-- The values `pc` may take after the instruction (30_encoding.md R71): the class of each instruction. -/
def Instr.nextPcs (s : State) : Instr → List Word
  | .seImm _ _ | .sneImm _ _ | .seReg _ _ | .sneReg _ _ | .skp _ | .sknp _ => [s.pc + 2, s.pc + 4]
  | .jp nnn => [zextAddr nnn]
  | .jpV0 nnn => [zextAddr nnn + zextByte (s.getV 0)]
  | .call nnn => if s.sp.val < 16 then [zextAddr nnn] else [s.pc]
  | .ret => if h : 0 < s.sp.val then [s.top h + 2] else [s.pc]
  | .ldVxK _ => if s.keys = 0#16 then [s.pc] else [s.pc + 2]
  | _ => [s.pc + 2]

end Sys2Proof

namespace Sys2Proof.Machine

/-! ### The sprite -/

/-- Cell `c` is addressed by a 1 bit of the sprite: the set M of 43_display.md R162. -/
def SpriteCovers (m : Memory) (base vx vy n c : Nat) : Prop :=
  ∃ row, row < n ∧ ∃ col, col < 8 ∧ spriteBit (m.read (base + row)) col = true ∧ spriteCell vx vy row col = c

/-! ### The invariant -/

/-- `err` is None while `mode` is not HALTED, and an error otherwise (10_state.md R23). -/
def State.errOk (s : State) : Bool := decide (s.mode = .halted) == s.err.isSome

/-- In AWAIT_KEY `pc` points at an Fx0A (10_state.md R23; 44_keypad_timers.md R177). -/
def State.waitOk (s : State) : Bool :=
  match s.mode, decodeWord s.fetchWord with
  | .awaitKey, .ok (.ldVxK _) => true
  | .awaitKey, _ => false
  | _, _ => true

/-- The invariant of every run: memory in its canonical form, `err` exactly in HALTED, and a waiting machine at its
Fx0A. -/
def State.Inv (s : State) : Prop := s.mem.wf = true ∧ s.errOk = true ∧ s.waitOk = true

/-! ### Safe runs -/

/-- The machine has raised no error: a halted machine refutes a claim of normal completion
(70_reset_and_hazards.md R235). -/
def State.ErrorFree (s : State) : Prop := s.mode ≠ .halted

/-- The machine runs `k` transitions, none of which ends the run, and raises no error in them. -/
def SafeRun : Nat → State → Prop
  | 0, s => s.ErrorFree
  | k + 1, s => s.ErrorFree ∧ ∃ t, step s = .next t ∧ SafeRun k t

end Sys2Proof.Machine
end

