-- ==== Sys2Proof/Certificates/Slice0/Obligations.lean ====
section
/-! DEFINITION. The statements about the machine, each a numbered rule of the spec or a consequence of several. A word
"decision D<n>" names an entry of spec/92_eei_decisions.md: the spec's own choice, not its source's. -/

open Sys2Proof Sys2Proof.Machine

/-! ### Encoding -/

/-- Decode and encode agree: every instruction is read back from its word and from its two bytes with every operand
(30_encoding.md R61, R62, R64, R65). -/
def Obligations.DecodeOfEncodeIsTheInstruction : Prop :=
  ∀ (i : Instr) (rest : List Byte),
    decodeWord (encode i) = .ok i ∧ decode (encodeBytes i ++ rest) = .ok (i, rest)

/-- No two words decode to one instruction: the word is the instruction's encoding (30_encoding.md R65, R70). -/
def Obligations.EncodeOfDecodeIsTheWord : Prop :=
  ∀ (w : Word) (i : Instr), decodeWord w = .ok i → encode i = w

/-- The decoder follows the opcode map: a word that selects a row is that row's instruction, so rows are disjoint, and a
word that selects none is Unknown (30_encoding.md R65, R66). -/
def Obligations.DecodeFollowsTheOpcodeMap : Prop :=
  ∀ w : Word,
    (∀ r, r ∈ opcodeRows → r.selects w = true → ∃ i, decodeWord w = .ok i ∧ i.row = r) ∧
    (wordLegal w = false → decodeWord w = .error (.unknownOpcode w))

/-- The illegal words, family by family, and no other outcome than an instruction or Unknown (30_encoding.md R66,
R70). -/
def Obligations.IllegalWordsByFamily : Prop :=
  ∀ w : Word,
    ((∃ i, decodeWord w = .ok i) ∨ decodeWord w = .error (.unknownOpcode w)) ∧
    (decodeWord w = .error (.unknownOpcode w) ↔
      (familyField w = 0x0 ∧ w ≠ 0x00E0 ∧ w ≠ 0x00EE) ∨
      (familyField w = 0x5 ∧ nField w ≠ 0) ∨
      (familyField w = 0x8 ∧ (8 ≤ (nField w).val ∧ (nField w).val ≤ 0xD ∨ nField w = 0xF)) ∨
      (familyField w = 0x9 ∧ nField w ≠ 0) ∨
      (familyField w = 0xE ∧ kkField w ∉ ([0x9E, 0xA1] : List Byte)) ∨
      (familyField w = 0xF ∧ kkField w ∉ ([0x07, 0x0A, 0x15, 0x18, 0x1E, 0x29, 0x33, 0x55, 0x65] : List Byte)))

/-- Words written out from the spec's examples decode to the instructions they stand for (95_test_vectors.md). -/
def Obligations.SpecWordsDecodeAsWritten : Prop :=
  decodeWord 0x00E0 = .ok .cls ∧ decodeWord 0x00EE = .ok .ret ∧ decodeWord 0x1228 = .ok (.jp 0x228) ∧
  decodeWord 0x2300 = .ok (.call 0x300) ∧ decodeWord 0x6A05 = .ok (.ldImm 0xA 0x05) ∧
  decodeWord 0x8124 = .ok (.addReg 1 2) ∧ decodeWord 0xA2F0 = .ok (.ldI 0x2F0) ∧
  decodeWord 0xD12F = .ok (.drw 1 2 0xF) ∧ decodeWord 0xE19E = .ok (.skp 1) ∧ decodeWord 0xF50A = .ok (.ldVxK 5) ∧
  decodeWord 0x8128 = .error (.unknownOpcode 0x8128)

/-! ### The step and the cycle -/

/-- A step runs the decoded instruction: on a cycle of a machine that is not halted, the word at `pc` goes to `ir`, the
cycle's inputs to `pins`, the instruction is executed, and the rest of the cycle follows (60_exceptions.md R219, R211;
decision D19). `takeEvent` only takes the host's event (logs 3, 4). -/
def Obligations.StepRunsTheDecodedInstruction : Prop :=
  ∀ (s : State) (inp : CycleInputs) (i : Instr),
    s.mode ≠ .halted → s.nextEvent = .cycle inp → decodeWord s.fetchWord = .ok i →
    step s = mapNext (State.endCycle inp) (exec i { s.takeEvent with pins := inp, ir := s.fetchWord })

/-- An unknown word halts the machine with `err` recording it: of the spec's state the instruction step writes `ir`,
`mode` and `err` alone, `pc` stays, and the rest of the cycle does not run (60_exceptions.md R201, R207; decision D17).
The model's own bookkeeping comes before the step: `takeEvent` takes the host's event or counts a draw and, with no event
scripted, lets the host acknowledge the frame first (`redraw`), and the cycle's inputs go to `pins` (logs 3, 4). -/
def Obligations.UnknownWordHaltsTheMachine : Prop :=
  ∀ (s : State) (inp : CycleInputs) (e : DecodeError),
    s.mode ≠ .halted → s.nextEvent = .cycle inp → decodeWord s.fetchWord = .error e →
    step s = .next { s.takeEvent with
      pins := inp, ir := s.fetchWord, mode := .halted, err := some (.unknownOpcode s.fetchWord) }

/-- A 17th call and a return on the empty stack halt the machine: of the spec's state the instruction step writes `ir`,
`mode` and `err` alone, and neither KeySample nor TimerTick runs (60_exceptions.md R202, R203, R207; decision D17). The
model's own bookkeeping comes before the step: `takeEvent` takes the host's event or counts a draw and, with no event
scripted, lets the host acknowledge the frame first (`redraw`), and the cycle's inputs go to `pins` (logs 3, 4). -/
def Obligations.StackErrorsAbandonTheCycle : Prop :=
  ∀ (s : State) (inp : CycleInputs), s.mode ≠ .halted → s.nextEvent = .cycle inp →
    (∀ nnn, decodeWord s.fetchWord = .ok (.call nnn) → s.sp.val = 16 →
      step s = .next { s.takeEvent with
        pins := inp, ir := s.fetchWord, mode := .halted, err := some .stackOverflow }) ∧
    (decodeWord s.fetchWord = .ok .ret → s.sp.val = 0 →
      step s = .next { s.takeEvent with
        pins := inp, ir := s.fetchWord, mode := .halted, err := some .stackUnderflow })

/-- HALTED is absorbing: short of a Load or Shutdown, a step of a halted machine changes at most `redraw` (the host's
RenderAck) and the host's own events and draws (60_exceptions.md R208; decision D16). How events and draws are taken is
the model's choice (logs 3, 4). -/
def Obligations.HaltedIsAbsorbing : Prop :=
  ∀ s : State, s.mode = .halted → (∀ rom, s.nextEvent ≠ .load rom) → s.nextEvent ≠ .shutdown →
    ∃ t, step s = .next t ∧ SameExcept [.redraw, .events, .draws] s t ∧
      (∀ inp, s.nextEvent = .cycle inp → t = s.takeEvent)

/-- The only step without a next state is Shutdown's. A run also ends in HALTED (70_reset_and_hazards.md R235;
60_exceptions.md R218), but a halted machine's steps have next states. That Shutdown is the fault `shutDown`, and that a
step without a scripted event is a Cycle, is the model's choice (log 4). -/
def Obligations.OnlyShutdownHasNoNextState : Prop :=
  ∀ s : State,
    (s.nextEvent = .shutdown ∧ step s = .fault .shutDown) ∨ (s.nextEvent ≠ .shutdown ∧ ∃ t, step s = .next t)

/-- Every instruction completes in every state (70_reset_and_hazards.md R247). -/
def Obligations.EveryInstructionCompletes : Prop :=
  ∀ (i : Instr) (s : State), ∃ t, exec i s = .next t

/-- After an instruction that raises no error the cycle samples the keys and then ticks both timers when a tick is due:
so a timer value written by the instruction is already decremented (60_exceptions.md R211, R212, R215; decisions D19,
D33). -/
def Obligations.CycleSamplesKeysThenTicks : Prop :=
  ∀ (s t : State) (inp : CycleInputs),
    s.mode ≠ .halted → instrStep (s.setPins inp) = .next t → t.mode ≠ .halted →
    cycle inp s = .next { t with
      keys := inp.keysIn
      dt := if inp.tickDue = true ∧ t.dt.toNat > 0 then t.dt - 1 else t.dt
      st := if inp.tickDue = true ∧ t.st.toNat > 0 then t.st - 1 else t.st }

/-- After k ticks and no write a timer of value v holds max(v - k, 0) (60_exceptions.md R213 (b)). -/
def Obligations.TimerHoldsTheValueLessTheTicks : Prop :=
  ∀ (k : Nat) (s : State),
    (State.timerTick^[k] s).dt.toNat = s.dt.toNat - k ∧ (State.timerTick^[k] s).st.toNat = s.st.toNat - k

/-- TimerTick decrements each timer that is above 0 and writes nothing else (60_exceptions.md R212; decision D19 for the
common tick). -/
def Obligations.TimerTickWritesOnlyTheTimers : Prop :=
  ∀ s : State,
    (s.dt.toNat > 0 → s.timerTick.dt.toNat = s.dt.toNat - 1) ∧ (s.dt.toNat = 0 → s.timerTick.dt.toNat = 0) ∧
    (s.st.toNat > 0 → s.timerTick.st.toNat = s.st.toNat - 1) ∧ (s.st.toNat = 0 → s.timerTick.st.toNat = 0) ∧
    SameExcept [.dt, .st] s s.timerTick

/-- KeySample overwrites all 16 flags from the input and writes nothing else (60_exceptions.md R215; decision D33). -/
def Obligations.KeySampleOverwritesAllFlags : Prop :=
  ∀ (s : State) (keysIn : BitVec 16),
    (∀ k, k < 16 → (s.keySample keysIn).keys.getLsbD k = keysIn.getLsbD k) ∧
    SameExcept [.keys] s (s.keySample keysIn)

/-- RenderAck clears `redraw` and writes nothing else of the spec's state (60_exceptions.md R217; decision D14). That it
is the oldest entry of the list `events`, which the step takes, is the model's choice (log 4). -/
def Obligations.RenderAckClearsRedrawOnly : Prop :=
  ∀ s : State, s.nextEvent = .renderAck →
    ∃ t, step s = .next t ∧ t.redraw = false ∧ t.events = s.events.tail ∧ SameExcept [.redraw, .events] s t

/-- `tone` is 1 exactly when `st > 0`, and its edges are the audio events of R214's table (60_exceptions.md R214;
decision D15 for a write of 0 over a positive `st` and for Load). -/
def Obligations.ToneFollowsTheSoundTimer : Prop :=
  (∀ s : State, s.tone = true ↔ s.st.toNat > 0) ∧
  (∀ (x : Nib) (s : State), ∃ t, exec (.ldSTVx x) s = .next t ∧
    (s.st.toNat = 0 → (s.getV x).toNat > 0 → toneEvent s t = some .startTone) ∧
    (s.st.toNat > 0 → (s.getV x).toNat = 0 → toneEvent s t = some .stopTone) ∧
    (s.st.toNat > 0 → (s.getV x).toNat > 0 → toneEvent s t = none) ∧
    (s.st.toNat = 0 → (s.getV x).toNat = 0 → toneEvent s t = none)) ∧
  (∀ s : State, toneEvent s s.timerTick = if s.st.toNat = 1 then some .stopTone else none) ∧
  (∀ (rom : List Byte) (s t : State), loadRom rom s = .ok t → t.tone = false)

/-! ### Load and reset -/

/-- Every ROM of at most 3584 bytes loads: memory holds it verbatim from 0x200, the font table at 0x000, and 0 elsewhere
(20_memory.md R56; 70_reset_and_hazards.md R230). -/
def Obligations.LoadPutsTheRomInMemory : Prop :=
  ∀ (rom : List Byte) (s : State), rom.length ≤ 3584 →
    ∃ t, loadRom rom s = .ok t ∧
      (∀ (k : Nat) (h : k < rom.length), t.mem.read (0x200 + k) = rom[k]) ∧
      (∀ (k : Nat) (h : k < 80), t.mem.read k = s.mem.font[k]) ∧
      (∀ a, 0x050 ≤ a → a < 0x200 → t.mem.read a = 0) ∧
      (∀ a, 0x200 + rom.length ≤ a → a < 0x1000 → t.mem.read a = 0)

/-- A Load that succeeds gives every other element its reset value, whatever the state was, and goes through `step`
(10_state.md R30; 70_reset_and_hazards.md R230, R231; decisions D12, D32). The host's events and draws go on (log 4). -/
def Obligations.LoadResetsEveryOtherElement : Prop :=
  ∀ (rom : List Byte) (s : State), rom.length ≤ 3584 →
    ∃ t, loadRom rom s = .ok t ∧
      (∀ r, t.getV r = 0) ∧ t.I = 0 ∧ t.pc = 0x200 ∧ t.sp.val = 0 ∧ (∀ k : Fin 16, t.stack[k] = 0) ∧
      t.dt = 0 ∧ t.st = 0 ∧ (∀ c, c < 2048 → getCell t.disp c = false) ∧ t.keys = 0 ∧ t.ir = 0 ∧
      t.redraw = false ∧ t.mode = .running ∧ t.err = none ∧ t.events = s.events ∧
      (s.nextEvent = .load rom → ∃ u, loadRom rom s.takeEvent = .ok u ∧ step s = .next u)

/-- A ROM of more than 3584 bytes fails with RomTooLarge, and the state stays as it was (70_reset_and_hazards.md
R232). -/
def Obligations.RomTooLargeChangesNothing : Prop :=
  ∀ (rom : List Byte) (s : State), rom.length > 3584 →
    loadRom rom s = .error .romTooLarge ∧
    (s.nextEvent = .load rom → step s = .next { s with events := s.events.tail })

/-- The state after reset (10_state.md R30; decision D12 for the values the source does not name). The model's choice:
the FONT is the default of 20_memory.md R55 (log 2) and the ROM is empty (log 7). -/
def Obligations.ResetIsAsTheSpecSays : Prop :=
  (∀ r, State.reset.getV r = 0) ∧ State.reset.I = 0 ∧ State.reset.pc = 0x200 ∧ State.reset.sp.val = 0 ∧
  (∀ k : Fin 16, State.reset.stack[k] = 0) ∧ State.reset.dt = 0 ∧ State.reset.st = 0 ∧
  (∀ c, c < 2048 → getCell State.reset.disp c = false) ∧ State.reset.keys = 0 ∧ State.reset.ir = 0 ∧
  State.reset.redraw = false ∧ State.reset.mode = .running ∧ State.reset.err = none ∧ State.reset.tone = false ∧
  (∀ (k : Nat) (h : k < 80), State.reset.mem.read k = Config.defaultFont[k]) ∧
  (∀ a, 0x050 ≤ a → a < 0x1000 → State.reset.mem.read a = 0)

/-! ### Loads, arithmetic, logic, shifts, random -/

/-- 6xkk: `V[x] <- kk`, also when x = 0xF (41_load_alu.md R121). -/
def Obligations.LoadImmediateWritesVx : Prop :=
  ∀ (x : Nib) (kk : Byte) (s : State), ∃ t, exec (.ldImm x kk) s = .next t ∧ WritesReg s t x kk

/-- 7xkk: `V[x] <- (V[x] + kk) mod 256` and no flag (41_load_alu.md R122). -/
def Obligations.AddImmediateWrapsWithoutFlag : Prop :=
  ∀ (x : Nib) (kk : Byte) (s : State), ∃ t, exec (.addImm x kk) s = .next t ∧
    WritesReg s t x (BitVec.ofNat 8 (((s.getV x).toNat + kk.toNat) % 256))

/-- 8xy0 to 8xy3: move, OR, AND, XOR, bit by bit, and no flag (41_load_alu.md R123 to R126). -/
def Obligations.MoveAndLogicWriteVxOnly : Prop :=
  ∀ (x y : Nib) (s : State),
    (∃ t, exec (.ldReg x y) s = .next t ∧ WritesReg s t x (s.getV y)) ∧
    (∃ t, exec (.orReg x y) s = .next t ∧ WritesReg s t x (t.getV x) ∧
      ∀ k, k < 8 → (t.getV x).getLsbD k = ((s.getV x).getLsbD k || (s.getV y).getLsbD k)) ∧
    (∃ t, exec (.andReg x y) s = .next t ∧ WritesReg s t x (t.getV x) ∧
      ∀ k, k < 8 → (t.getV x).getLsbD k = ((s.getV x).getLsbD k && (s.getV y).getLsbD k)) ∧
    (∃ t, exec (.xorReg x y) s = .next t ∧ WritesReg s t x (t.getV x) ∧
      ∀ k, k < 8 → (t.getV x).getLsbD k = ((s.getV x).getLsbD k ^^ (s.getV y).getLsbD k))

/-- 8xy4: the sum mod 256 and the carry of the sum before truncation; VF is written last, so with x = 0xF it holds the
carry (41_load_alu.md R127, R120; decision D4). -/
def Obligations.AddSetsTheCarry : Prop :=
  ∀ (x y : Nib) (s : State), ∃ t, exec (.addReg x y) s = .next t ∧
    WritesRegAndFlag s t x (BitVec.ofNat 8 (((s.getV x).toNat + (s.getV y).toNat) % 256))
      (if (s.getV x).toNat + (s.getV y).toNat > 255 then 1 else 0)

/-- 8xy5 and 8xy7: the difference mod 256; VF is 1 exactly when the minuend is strictly greater, 0 when equal
(41_load_alu.md R128, R130, R120; decisions D4, D27). -/
def Obligations.SubtractsSetTheStrictFlag : Prop :=
  ∀ (x y : Nib) (s : State),
    (∃ t, exec (.subReg x y) s = .next t ∧
      WritesRegAndFlag s t x (BitVec.ofNat 8 (((s.getV x).toNat + 256 - (s.getV y).toNat) % 256))
        (if (s.getV x).toNat > (s.getV y).toNat then 1 else 0)) ∧
    (∃ t, exec (.subnReg x y) s = .next t ∧
      WritesRegAndFlag s t x (BitVec.ofNat 8 (((s.getV y).toNat + 256 - (s.getV x).toNat) % 256))
        (if (s.getV y).toNat > (s.getV x).toNat then 1 else 0))

/-- 8xy6 and 8xyE: Vy shifted by one, VF the bit shifted out of Vy before the shift (41_load_alu.md R129, R131, R120;
decision D4). -/
def Obligations.ShiftsReadVy : Prop :=
  ∀ (x y : Nib) (s : State),
    (∃ t, exec (.shrReg x y) s = .next t ∧
      WritesRegAndFlag s t x (BitVec.ofNat 8 ((s.getV y).toNat / 2)) (BitVec.ofNat 8 ((s.getV y).toNat % 2))) ∧
    (∃ t, exec (.shlReg x y) s = .next t ∧
      WritesRegAndFlag s t x (BitVec.ofNat 8 (2 * (s.getV y).toNat % 256)) (BitVec.ofNat 8 ((s.getV y).toNat / 128)))

/-- Cxkk: the random byte of this cycle, whatever it is, masked with kk (41_load_alu.md R132; decision D18). -/
def Obligations.RandomIsMaskedByKk : Prop :=
  ∀ (x : Nib) (kk : Byte) (s : State), ∃ t, exec (.rnd x kk) s = .next t ∧ WritesReg s t x (t.getV x) ∧
    ∀ k, k < 8 → (t.getV x).getLsbD k = (s.pins.rnd.getLsbD k && kk.getLsbD k)

/-! ### Control transfer -/

/-- 1nnn: `pc <- zext_16(nnn)`, always below 0x1000, nothing else (40_control_flow.md R102). -/
def Obligations.JumpGoesToNnn : Prop :=
  ∀ (nnn : Addr12) (s : State), ∃ t, exec (.jp nnn) s = .next t ∧ MovesPc s t t.pc ∧
    t.pc.toNat = nnn.toNat ∧ t.pc.toNat < 0x1000

/-- Bnnn: `pc` is the unreduced sum nnn + V0 (40_control_flow.md R104; decision D30). -/
def Obligations.JumpOffsetAddsV0 : Prop :=
  ∀ (nnn : Addr12) (s : State), ∃ t, exec (.jpV0 nnn) s = .next t ∧ MovesPc s t t.pc ∧
    t.pc.toNat = nnn.toNat + (s.getV 0).toNat

/-- 2nnn: below 16 entries the CALL's own address is saved and `pc` goes to nnn; with 16 saved StackOverflow, and nothing
but `mode` and `err` changes (40_control_flow.md R103). -/
def Obligations.CallSavesItsOwnAddress : Prop :=
  ∀ (nnn : Addr12) (s : State),
    (∀ h : s.sp.val < 16, ∃ t, exec (.call nnn) s = .next t ∧ t.stack[s.sp.val] = s.pc ∧
      (∀ k : Fin 16, k.val ≠ s.sp.val → t.stack[k] = s.stack[k]) ∧ t.sp.val = s.sp.val + 1 ∧
      t.pc.toNat = nnn.toNat ∧ SameExcept [.stack, .sp, .pc] s t) ∧
    (s.sp.val = 16 → exec (.call nnn) s = .next { s with mode := .halted, err := some .stackOverflow })

/-- 00EE: the top entry is popped, `pc` is the entry plus 2 mod 65536, and the entry stays in `stack`; on the empty stack
StackUnderflow, and nothing but `mode` and `err` changes (40_control_flow.md R101). -/
def Obligations.ReturnGoesTwoPastTheEntry : Prop :=
  ∀ s : State,
    (∀ (k : Fin 16), s.sp.val = k.val + 1 → ∃ t, exec .ret s = .next t ∧
      t.pc.toNat = (s.stack[k].toNat + 2) % 65536 ∧ t.sp.val = k.val ∧ SameExcept [.sp, .pc] s t) ∧
    (s.sp.val = 0 → exec .ret s = .next { s with mode := .halted, err := some .stackUnderflow })

/-- 3xkk, 4xkk, 5xy0, 9xy0: `pc + 4` when the condition holds, else `pc + 2`, and nothing else (40_control_flow.md R105 to
R108). -/
def Obligations.CompareSkips : Prop :=
  ∀ (x y : Nib) (kk : Byte) (s : State),
    (∃ t, exec (.seImm x kk) s = .next t ∧ MovesPc s t (if s.getV x = kk then s.pc + 4 else s.pc + 2)) ∧
    (∃ t, exec (.sneImm x kk) s = .next t ∧ MovesPc s t (if s.getV x ≠ kk then s.pc + 4 else s.pc + 2)) ∧
    (∃ t, exec (.seReg x y) s = .next t ∧ MovesPc s t (if s.getV x = s.getV y then s.pc + 4 else s.pc + 2)) ∧
    (∃ t, exec (.sneReg x y) s = .next t ∧ MovesPc s t (if s.getV x ≠ s.getV y then s.pc + 4 else s.pc + 2))

/-! ### Keypad and timers -/

/-- Ex9E and ExA1: the key is the low nibble of Vx, its flag is not consumed (44_keypad_timers.md R170 to R172;
decision D7). -/
def Obligations.KeySkips : Prop :=
  ∀ (x : Nib) (s : State),
    (∃ t, exec (.skp x) s = .next t ∧
      MovesPc s t (if s.keys.getLsbD ((s.getV x).toNat % 16) = true then s.pc + 4 else s.pc + 2)) ∧
    (∃ t, exec (.sknp x) s = .next t ∧
      MovesPc s t (if s.keys.getLsbD ((s.getV x).toNat % 16) = false then s.pc + 4 else s.pc + 2))

/-- Fx0A with a key down: the least pressed index goes to Vx, its flag alone is cleared, `mode` is RUNNING and `pc`
advances (44_keypad_timers.md R173; decision D8). -/
def Obligations.KeyWaitTakesTheLowestKey : Prop :=
  ∀ (x k0 : Nib) (s : State), s.keys.getLsbD k0.val = true → (∀ j, j < k0.val → s.keys.getLsbD j = false) →
    ∃ t, exec (.ldVxK x) s = .next t ∧ (t.getV x).toNat = k0.val ∧ (∀ r, r ≠ x → t.getV r = s.getV r) ∧
      t.keys.getLsbD k0.val = false ∧ (∀ j, j < 16 → j ≠ k0.val → t.keys.getLsbD j = s.keys.getLsbD j) ∧
      t.mode = .running ∧ t.pc = s.pc + 2 ∧ SameExcept [.V, .keys, .mode, .pc] s t

/-- Fx0A with no key down: `mode` is AWAIT_KEY, `pc` is held, and nothing else changes (44_keypad_timers.md R173;
decision D8). -/
def Obligations.KeyWaitHoldsPc : Prop :=
  ∀ (x : Nib) (s : State), (∀ k, k < 16 → s.keys.getLsbD k = false) →
    exec (.ldVxK x) s = .next { s with mode := .awaitKey }

/-- Fx07: `V[x] <- dt`, and `dt` is unchanged (44_keypad_timers.md R174). -/
def Obligations.ReadDelayTimer : Prop :=
  ∀ (x : Nib) (s : State), ∃ t, exec (.ldVxDT x) s = .next t ∧ WritesReg s t x s.dt

/-- Fx15 and Fx18: the timer is replaced by Vx and nothing else changes (44_keypad_timers.md R175, R176). -/
def Obligations.SetTimers : Prop :=
  ∀ (x : Nib) (s : State),
    (∃ t, exec (.ldDTVx x) s = .next t ∧ t.dt = s.getV x ∧ t.pc = s.pc + 2 ∧ SameExcept [.dt, .pc] s t) ∧
    (∃ t, exec (.ldSTVx x) s = .next t ∧ t.st = s.getV x ∧ t.pc = s.pc + 2 ∧ SameExcept [.st, .pc] s t)

/-! ### Index register and memory -/

/-- Annn: `I <- zext_16(nnn)`; Fx1E: `I <- (I + V[x]) mod 65536` with no flag (42_index_memory.md R141, R142). -/
def Obligations.IndexLoadAndAdd : Prop :=
  (∀ (nnn : Addr12) (s : State), ∃ t, exec (.ldI nnn) s = .next t ∧ t.I.toNat = nnn.toNat ∧ t.I.toNat < 0x1000 ∧
    t.pc = s.pc + 2 ∧ SameExcept [.I, .pc] s t) ∧
  (∀ (x : Nib) (s : State), ∃ t, exec (.addI x) s = .next t ∧
    t.I.toNat = (s.I.toNat + (s.getV x).toNat) % 65536 ∧ t.pc = s.pc + 2 ∧ SameExcept [.I, .pc] s t)

/-- Fx29: `I <- V[x] * 5` exactly, also for Vx above 15 (42_index_memory.md R143; decision D29). -/
def Obligations.FontAddressIsFiveTimesVx : Prop :=
  ∀ (x : Nib) (s : State), ∃ t, exec (.ldF x) s = .next t ∧ t.I.toNat = (s.getV x).toNat * 5 ∧
    t.pc = s.pc + 2 ∧ SameExcept [.I, .pc] s t

/-- Fx33: hundreds, tens and ones at I, I+1, I+2 mod 4096, and every other byte stays (42_index_memory.md R144, R140;
decisions D5, D9). -/
def Obligations.BcdStoresThreeDigits : Prop :=
  ∀ (x : Nib) (s : State), ∃ t, exec (.ldB x) s = .next t ∧
    (t.mem.read (s.effAddr 0)).toNat = (s.getV x).toNat / 100 ∧
    (t.mem.read (s.effAddr 1)).toNat = (s.getV x).toNat / 10 % 10 ∧
    (t.mem.read (s.effAddr 2)).toNat = (s.getV x).toNat % 10 ∧
    (∀ a, (∀ k, k < 3 → a % 4096 ≠ s.effAddr k % 4096) → t.mem.read a = s.mem.read a) ∧
    t.pc = s.pc + 2 ∧ SameExcept [.mem, .pc] s t

/-- Fx55: V0..Vx at I..I+x mod 4096, and every other byte stays (42_index_memory.md R145, R140; decisions D5, D9). -/
def Obligations.StoreRegistersWritesTheRange : Prop :=
  ∀ (x : Nib) (s : State), ∃ t, exec (.storeRegs x) s = .next t ∧
    (∀ r : Nib, r.val ≤ x.val → t.mem.read (s.effAddr r.val) = s.getV r) ∧
    (∀ a, (∀ k, k ≤ x.val → a % 4096 ≠ s.effAddr k % 4096) → t.mem.read a = s.mem.read a) ∧
    t.pc = s.pc + 2 ∧ SameExcept [.mem, .pc] s t

/-- Fx65: V0..Vx from I..I+x mod 4096, the registers above Vx stay (42_index_memory.md R146, R140; decisions D5, D9). -/
def Obligations.LoadRegistersReadsTheRange : Prop :=
  ∀ (x : Nib) (s : State), ∃ t, exec (.loadRegs x) s = .next t ∧
    (∀ r : Nib, r.val ≤ x.val → t.getV r = s.mem.read (s.effAddr r.val)) ∧
    (∀ r : Nib, x.val < r.val → t.getV r = s.getV r) ∧
    t.pc = s.pc + 2 ∧ SameExcept [.V, .pc] s t

/-- What Fx55 stored, Fx65 gives back, whatever the registers became meanwhile, also across the wrap of memory
(42_index_memory.md R140, R145, R146; decision D5). -/
def Obligations.StoreThenLoadRestoresTheRegisters : Prop :=
  ∀ (x : Nib) (s : State) (regs : Vector Byte 16), ∃ t u,
    exec (.storeRegs x) s = .next t ∧ exec (.loadRegs x) { t with V := regs } = .next u ∧
    (∀ r : Nib, r.val ≤ x.val → u.getV r = s.getV r) ∧ (∀ r : Nib, x.val < r.val → u.getV r = regs[r])

/-- A store is seen by the very next fetch: two registers Fx55 stores at the address of the next instruction are the word
fetched there, across the wrap as well (20_memory.md R52, R44; decision D5). -/
def Obligations.StoreIsSeenByTheNextFetch : Prop :=
  ∀ (x : Nib) (s : State) (k : Nib) (h : k.val + 1 ≤ x.val), s.effAddr k.val % 4096 = (s.pc + 2).toNat % 4096 →
    ∃ t, exec (.storeRegs x) s = .next t ∧
      t.fetchWord.toNat = 256 * (s.getV k).toNat + (s.getV ⟨k.val + 1, by have := x.isLt; omega⟩).toNat

/-! ### Display -/

/-- 00E0: all 2048 cells 0, `redraw` set, VF untouched (43_display.md R161; decision D13 for `redraw`). -/
def Obligations.ClearDarkensEveryCell : Prop :=
  ∀ s : State, ∃ t, exec .cls s = .next t ∧ (∀ c, c < 2048 → getCell t.disp c = false) ∧ t.redraw = true ∧
    t.pc = s.pc + 2 ∧ SameExcept [.disp, .redraw, .pc] s t

/-- Dxyn in closed form: every cell the sprite covers is toggled, every other stays, VF is 1 exactly when a covered cell
was lit, `redraw` is set, and I and the other registers stay (43_display.md R162; decisions D10, D22). -/
def Obligations.DrawTogglesTheCoveredCells : Prop :=
  ∀ (x y n : Nib) (s : State), ∃ t, exec (.drw x y n) s = .next t ∧
    (∀ c, c < 2048 →
      (SpriteCovers s.mem s.I.toNat (s.getV x).toNat (s.getV y).toNat n.val c →
        getCell t.disp c = !getCell s.disp c) ∧
      (¬SpriteCovers s.mem s.I.toNat (s.getV x).toNat (s.getV y).toNat n.val c →
        getCell t.disp c = getCell s.disp c)) ∧
    (t.getV 15 = 0 ∨ t.getV 15 = 1) ∧
    (t.getV 15 = 1 ↔ ∃ c, SpriteCovers s.mem s.I.toNat (s.getV x).toNat (s.getV y).toNat n.val c ∧
      getCell s.disp c = true) ∧
    (∀ r, r ≠ 15 → t.getV r = s.getV r) ∧ t.redraw = true ∧ t.pc = s.pc + 2 ∧
    SameExcept [.V, .disp, .redraw, .pc] s t

/-- Sprite draw is self-inverse: the same Dxyn twice, with x and y other than 0xF, restores the display, and the second
draw's VF is 1 exactly when the first turned a cell on (43_display.md R163). -/
def Obligations.DrawTwiceRestoresTheDisplay : Prop :=
  ∀ (x y n : Nib) (s : State), x ≠ 15 → y ≠ 15 → ∃ t u,
    exec (.drw x y n) s = .next t ∧ exec (.drw x y n) t = .next u ∧ u.disp = s.disp ∧
    (u.getV 15 = 1 ↔ ∃ c, c < 2048 ∧ getCell s.disp c = false ∧ getCell t.disp c = true)

/-- Nothing but 00E0 and Dxyn writes the display, and a program learns nothing of it but Dxyn's VF: changing the display
before an instruction changes nothing after it but the display and, for Dxyn, VF (43_display.md R164). -/
def Obligations.DisplayIsWrittenByNothingElse : Prop :=
  (∀ (i : Instr) (s t : State), i ≠ .cls → (∀ x y n, i ≠ .drw x y n) → exec i s = .next t → t.disp = s.disp) ∧
  (∀ (s : State) (k : BitVec 16), s.timerTick.disp = s.disp ∧ (s.keySample k).disp = s.disp ∧
    s.renderAck.disp = s.disp) ∧
  (∀ (i : Instr) (s : State) (d : Display), ∃ t u,
    exec i s = .next t ∧ exec i { s with disp := d } = .next u ∧ (∀ r, r ≠ 15 → u.getV r = t.getV r) ∧
    SameExcept [.disp, .V] t u ∧ ((∀ x y n, i ≠ .drw x y n) → u.getV 15 = t.getV 15))

/-! ### Rules of the whole machine -/

/-- Each instruction changes only the elements its rule writes (40_control_flow.md R100). -/
def Obligations.InstructionsWriteOnlyTheirElements : Prop :=
  ∀ (i : Instr) (s t : State), exec i s = .next t → SameExcept i.writes s t

/-- A register changes only as a named destination, VF also in the six flag writers, which leave 0 or 1 in it
(10_state.md R11, R12). -/
def Obligations.RegistersChangeOnlyAsDestination : Prop :=
  ∀ (i : Instr) (s t : State), exec i s = .next t →
    (∀ r, i.namesDest r = false → (r = 15 → i.writesFlag = false) → t.getV r = s.getV r) ∧
    (i.writesFlag = true → t.getV 15 = 0 ∨ t.getV 15 = 1)

/-- The pc-advance classes: after an instruction `pc` is one of its class's values (30_encoding.md R71). -/
def Obligations.PcFollowsItsClass : Prop :=
  ∀ (i : Instr) (s t : State), exec i s = .next t → t.pc ∈ i.nextPcs s

/-- Only Fx0A and errors change `mode` (44_keypad_timers.md R177). -/
def Obligations.OnlyKeyWaitAndErrorsChangeMode : Prop :=
  ∀ (i : Instr) (s t : State), exec i s = .next t →
    t.mode = s.mode ∨
    ((∃ x, i = .ldVxK x) ∧ (t.mode = .running ∧ t.pc = s.pc + 2 ∨ t.mode = .awaitKey ∧ t.pc = s.pc)) ∨
    ((∃ nnn, i = .call nnn) ∧ s.sp.val = 16 ∧ t.mode = .halted ∧ t.err = some .stackOverflow) ∨
    (i = .ret ∧ s.sp.val = 0 ∧ t.mode = .halted ∧ t.err = some .stackUnderflow)

/-- No instruction's outcome depends on `st`, `redraw`, `ir`, `mode` or `err`: two states that differ only there end in
states that differ only there (10_state.md R18, R21, R22, R23). -/
def Obligations.NoInstructionReadsTheHiddenState : Prop :=
  ∀ (i : Instr) (s : State) (a : Byte) (b : Bool) (w : Word) (m : Mode) (e : Option ExecError), ∃ t u,
    exec i s = .next t ∧ exec i { s with st := a, redraw := b, ir := w, mode := m, err := e } = .next u ∧
    SameExcept [.st, .redraw, .ir, .mode, .err] t u

/-- Call and return round trip: a return at the callee's depth, with the caller's entry still in place, goes to the
instruction after the call and restores the depth (40_control_flow.md R109). -/
def Obligations.CallReturnRoundTrip : Prop :=
  ∀ (nnn : Addr12) (s : State) (h : s.sp.val < 16), ∃ t, exec (.call nnn) s = .next t ∧
    ∀ u : State, u.sp = t.sp → u.stack[s.sp.val] = t.stack[s.sp.val] →
      ∃ v, exec .ret u = .next v ∧ v.pc = s.pc + 2 ∧ v.sp = s.sp

/-- A jump to itself runs for any number of steps without an error, whatever the inputs: the usual end of a program
(70_reset_and_hazards.md R235; 40_control_flow.md R102). -/
def Obligations.SelfJumpRunsForever : Prop :=
  ∀ (k : Nat) (s : State) (nnn : Addr12), s.mode = .running → s.events = [] →
    decodeWord s.fetchWord = .ok (.jp nnn) → s.pc.toNat = nnn.toNat → SafeRun k s

/-! ### Invariants -/

/-- Every step keeps the invariant: memory canonical, `err` exactly in HALTED, a waiting machine at its Fx0A
(10_state.md R23; 44_keypad_timers.md R177; the canonical form is the model's, log 1). -/
def Obligations.StepKeepsTheInvariant : Prop :=
  ∀ s t : State, s.Inv → step s = .next t → t.Inv

/-- The invariant holds at reset: `mode` is RUNNING and `err` None (10_state.md R30; decision D12), and memory is in its
canonical form, which is the model's choice (log 1). -/
def Obligations.ResetMeetsTheInvariant : Prop := State.reset.Inv

/-- No step writes the parameter FONT, so every Load of a run copies the same font table (00_scope.md R5; 20_memory.md
R55; log 2). -/
def Obligations.FontIsNeverWritten : Prop :=
  ∀ s t : State, step s = .next t → t.mem.font = s.mem.font
end

