-- ==== Sys2Proof/Laws/Encoding.lean ====
section
/-! SUPPORT. The fields of a word laid out in each format (30_encoding.md R61, R62), and the opcode map's masks in terms
of the fields. -/

namespace Sys2Proof

theorem bits_lt (w : Word) (hi lo : Nat) : bits w hi lo < 2 ^ (hi + 1 - lo) := Nat.mod_lt _ (Nat.two_pow_pos _)

/-! ### Fields of the formats -/

theorem toNat_formatNNN {f : Nat} (hf : f < 16) (nnn : Addr12) : (formatNNN f nnn).toNat = 4096 * f + nnn.toNat := by
  have := nnn.isLt
  simp only [formatNNN, BitVec.toNat_ofNat]
  omega

theorem toNat_formatXKK {f : Nat} (hf : f < 16) (x : Nib) (kk : Byte) :
    (formatXKK f x kk).toNat = 4096 * f + 256 * x.val + kk.toNat := by
  have := kk.isLt
  have := x.isLt
  simp only [formatXKK, BitVec.toNat_ofNat]
  omega

theorem toNat_formatXYN {f : Nat} (hf : f < 16) (x y n : Nib) :
    (formatXYN f x y n).toNat = 4096 * f + 256 * x.val + 16 * y.val + n.val := by
  have := x.isLt
  have := y.isLt
  have := n.isLt
  simp only [formatXYN, BitVec.toNat_ofNat]
  omega

theorem family_formatNNN {f : Nat} (hf : f < 16) (nnn : Addr12) : familyField (formatNNN f nnn) = f := by
  have := nnn.isLt
  simp only [familyField, bits, toNat_formatNNN hf]
  omega

theorem nnn_formatNNN {f : Nat} (hf : f < 16) (nnn : Addr12) : nnnField (formatNNN f nnn) = nnn := by
  have := nnn.isLt
  apply BitVec.eq_of_toNat_eq
  simp only [nnnField, bits, toNat_formatNNN hf, BitVec.toNat_ofNat]
  omega

theorem family_formatXKK {f : Nat} (hf : f < 16) (x : Nib) (kk : Byte) : familyField (formatXKK f x kk) = f := by
  have := kk.isLt
  have := x.isLt
  simp only [familyField, bits, toNat_formatXKK hf]
  omega

theorem x_formatXKK {f : Nat} (hf : f < 16) (x : Nib) (kk : Byte) : xField (formatXKK f x kk) = x := by
  have := kk.isLt
  have := x.isLt
  apply Fin.ext
  simp only [xField, bits, toNat_formatXKK hf, Fin.val_ofNat]
  omega

theorem kk_formatXKK {f : Nat} (hf : f < 16) (x : Nib) (kk : Byte) : kkField (formatXKK f x kk) = kk := by
  have := kk.isLt
  have := x.isLt
  apply BitVec.eq_of_toNat_eq
  simp only [kkField, bits, toNat_formatXKK hf, BitVec.toNat_ofNat]
  omega

theorem lowByte_formatXKK {f : Nat} (hf : f < 16) (x : Nib) (kk : Byte) : bits (formatXKK f x kk) 7 0 = kk.toNat := by
  have := kk.isLt
  have := x.isLt
  simp only [bits, toNat_formatXKK hf]
  omega

theorem family_formatXYN {f : Nat} (hf : f < 16) (x y n : Nib) : familyField (formatXYN f x y n) = f := by
  have := x.isLt
  have := y.isLt
  have := n.isLt
  simp only [familyField, bits, toNat_formatXYN hf]
  omega

theorem x_formatXYN {f : Nat} (hf : f < 16) (x y n : Nib) : xField (formatXYN f x y n) = x := by
  have := x.isLt
  have := y.isLt
  have := n.isLt
  apply Fin.ext
  simp only [xField, bits, toNat_formatXYN hf, Fin.val_ofNat]
  omega

theorem y_formatXYN {f : Nat} (hf : f < 16) (x y n : Nib) : yField (formatXYN f x y n) = y := by
  have := x.isLt
  have := y.isLt
  have := n.isLt
  apply Fin.ext
  simp only [yField, bits, toNat_formatXYN hf, Fin.val_ofNat]
  omega

theorem n_formatXYN {f : Nat} (hf : f < 16) (x y n : Nib) : nField (formatXYN f x y n) = n := by
  have := x.isLt
  have := y.isLt
  have := n.isLt
  apply Fin.ext
  simp only [nField, bits, toNat_formatXYN hf, Fin.val_ofNat]
  omega

theorem lowNibble_formatXYN {f : Nat} (hf : f < 16) (x y n : Nib) : bits (formatXYN f x y n) 3 0 = n.val := by
  have := x.isLt
  have := y.isLt
  have := n.isLt
  simp only [bits, toNat_formatXYN hf]
  omega

/-! ### Bytes -/

/-- The two bytes of a word give the word back (20_memory.md R44). -/
theorem wordOfBytes_highByte_lowByte (w : Word) : wordOfBytes (highByte w) (lowByte w) = w := by
  have := w.isLt
  apply BitVec.eq_of_toNat_eq
  simp only [wordOfBytes, highByte, lowByte, bits, BitVec.toNat_ofNat]
  omega

/-! ### Masks -/

theorem and_F000 (w : Word) : w &&& 0xF000#16 = BitVec.ofNat 16 (4096 * bits w 15 12) := by
  apply BitVec.eq_of_getLsbD_eq
  intro i hi
  have e : 4096 * bits w 15 12 = 2 ^ 12 * (w.toNat / 2 ^ 12 % 2 ^ 4) := rfl
  rw [e, BitVec.getLsbD_ofNat, Nat.testBit_two_pow_mul, Nat.testBit_mod_two_pow, Nat.testBit_div_two_pow]
  simp only [BitVec.getLsbD_and]
  interval_cases i <;> simp [BitVec.getLsbD] <;> exact fun _ => rfl

theorem and_F00F (w : Word) : w &&& 0xF00F#16 = BitVec.ofNat 16 (4096 * bits w 15 12 + bits w 3 0) := by
  apply BitVec.eq_of_getLsbD_eq
  intro i hi
  have e : 4096 * bits w 15 12 + bits w 3 0 = 2 ^ 12 * (w.toNat / 2 ^ 12 % 2 ^ 4) + w.toNat / 2 ^ 0 % 2 ^ 4 := rfl
  have hb : w.toNat / 2 ^ 0 % 2 ^ 4 < 2 ^ 12 := by omega
  rw [e, BitVec.getLsbD_ofNat, Nat.testBit_two_pow_mul_add _ hb, Nat.testBit_mod_two_pow, Nat.testBit_mod_two_pow,
    Nat.testBit_div_two_pow, Nat.testBit_div_two_pow]
  simp only [BitVec.getLsbD_and]
  interval_cases i <;> simp [BitVec.getLsbD] <;> exact fun _ => rfl

theorem and_F0FF (w : Word) : w &&& 0xF0FF#16 = BitVec.ofNat 16 (4096 * bits w 15 12 + bits w 7 0) := by
  apply BitVec.eq_of_getLsbD_eq
  intro i hi
  have e : 4096 * bits w 15 12 + bits w 7 0 = 2 ^ 12 * (w.toNat / 2 ^ 12 % 2 ^ 4) + w.toNat / 2 ^ 0 % 2 ^ 8 := rfl
  have hb : w.toNat / 2 ^ 0 % 2 ^ 8 < 2 ^ 12 := by omega
  rw [e, BitVec.getLsbD_ofNat, Nat.testBit_two_pow_mul_add _ hb, Nat.testBit_mod_two_pow, Nat.testBit_mod_two_pow,
    Nat.testBit_div_two_pow, Nat.testBit_div_two_pow]
  simp only [BitVec.getLsbD_and]
  interval_cases i <;> simp [BitVec.getLsbD] <;> exact fun _ => rfl

/-- A row of mask F000 selects a word by its family. -/
theorem selects_F000 {f : Nat} (hf : f < 16) (w : Word) :
    (OpcodeRow.mk 0xF000 (BitVec.ofNat 16 (4096 * f))).selects w = true ↔ bits w 15 12 = f := by
  have h1 := bits_lt w 15 12
  simp only [OpcodeRow.selects, beq_iff_eq]
  rw [show (0xF000 : Word) = 0xF000#16 from rfl, and_F000, ← BitVec.toNat_inj]
  simp only [BitVec.toNat_ofNat]
  omega

/-- A row of mask F00F selects a word by its family and low nibble. -/
theorem selects_F00F {f n : Nat} (hf : f < 16) (hn : n < 16) (w : Word) :
    (OpcodeRow.mk 0xF00F (BitVec.ofNat 16 (4096 * f + n))).selects w = true ↔ bits w 15 12 = f ∧ bits w 3 0 = n := by
  have h1 := bits_lt w 15 12
  have h2 := bits_lt w 3 0
  simp only [OpcodeRow.selects, beq_iff_eq]
  rw [show (0xF00F : Word) = 0xF00F#16 from rfl, and_F00F, ← BitVec.toNat_inj]
  simp only [BitVec.toNat_ofNat]
  omega

/-- A row of mask F0FF selects a word by its family and low byte. -/
theorem selects_F0FF {f k : Nat} (hf : f < 16) (hk : k < 256) (w : Word) :
    (OpcodeRow.mk 0xF0FF (BitVec.ofNat 16 (4096 * f + k))).selects w = true ↔ bits w 15 12 = f ∧ bits w 7 0 = k := by
  have h1 := bits_lt w 15 12
  have h2 := bits_lt w 7 0
  simp only [OpcodeRow.selects, beq_iff_eq]
  rw [show (0xF0FF : Word) = 0xF0FF#16 from rfl, and_F0FF, ← BitVec.toNat_inj]
  simp only [BitVec.toNat_ofNat]
  omega

end Sys2Proof
end

