-- ==== Sys2Proof/Laws/State.lean ====
section
/-! SUPPORT. One lemma per field per update of the state, true by `rfl`, so that no proof unfolds a record update. -/

namespace Sys2Proof.Machine.State

variable (s : State)

/-! ### `setV` -/

@[simp] theorem setV_mem (i : Nib) (v : Byte) : (s.setV i v).mem = s.mem := rfl
@[simp] theorem setV_V (i : Nib) (v : Byte) : (s.setV i v).V = s.V.set i.val v := rfl
@[simp] theorem setV_I (i : Nib) (v : Byte) : (s.setV i v).I = s.I := rfl
@[simp] theorem setV_pc (i : Nib) (v : Byte) : (s.setV i v).pc = s.pc := rfl
@[simp] theorem setV_stack (i : Nib) (v : Byte) : (s.setV i v).stack = s.stack := rfl
@[simp] theorem setV_sp (i : Nib) (v : Byte) : (s.setV i v).sp = s.sp := rfl
@[simp] theorem setV_dt (i : Nib) (v : Byte) : (s.setV i v).dt = s.dt := rfl
@[simp] theorem setV_st (i : Nib) (v : Byte) : (s.setV i v).st = s.st := rfl
@[simp] theorem setV_disp (i : Nib) (v : Byte) : (s.setV i v).disp = s.disp := rfl
@[simp] theorem setV_keys (i : Nib) (v : Byte) : (s.setV i v).keys = s.keys := rfl
@[simp] theorem setV_ir (i : Nib) (v : Byte) : (s.setV i v).ir = s.ir := rfl
@[simp] theorem setV_redraw (i : Nib) (v : Byte) : (s.setV i v).redraw = s.redraw := rfl
@[simp] theorem setV_mode (i : Nib) (v : Byte) : (s.setV i v).mode = s.mode := rfl
@[simp] theorem setV_err (i : Nib) (v : Byte) : (s.setV i v).err = s.err := rfl
@[simp] theorem setV_pins (i : Nib) (v : Byte) : (s.setV i v).pins = s.pins := rfl
@[simp] theorem setV_events (i : Nib) (v : Byte) : (s.setV i v).events = s.events := rfl
@[simp] theorem setV_draws (i : Nib) (v : Byte) : (s.setV i v).draws = s.draws := rfl

/-! ### `setI` -/

@[simp] theorem setI_mem (v : Word) : (s.setI v).mem = s.mem := rfl
@[simp] theorem setI_V (v : Word) : (s.setI v).V = s.V := rfl
@[simp] theorem setI_I (v : Word) : (s.setI v).I = v := rfl
@[simp] theorem setI_pc (v : Word) : (s.setI v).pc = s.pc := rfl
@[simp] theorem setI_stack (v : Word) : (s.setI v).stack = s.stack := rfl
@[simp] theorem setI_sp (v : Word) : (s.setI v).sp = s.sp := rfl
@[simp] theorem setI_dt (v : Word) : (s.setI v).dt = s.dt := rfl
@[simp] theorem setI_st (v : Word) : (s.setI v).st = s.st := rfl
@[simp] theorem setI_disp (v : Word) : (s.setI v).disp = s.disp := rfl
@[simp] theorem setI_keys (v : Word) : (s.setI v).keys = s.keys := rfl
@[simp] theorem setI_ir (v : Word) : (s.setI v).ir = s.ir := rfl
@[simp] theorem setI_redraw (v : Word) : (s.setI v).redraw = s.redraw := rfl
@[simp] theorem setI_mode (v : Word) : (s.setI v).mode = s.mode := rfl
@[simp] theorem setI_err (v : Word) : (s.setI v).err = s.err := rfl
@[simp] theorem setI_pins (v : Word) : (s.setI v).pins = s.pins := rfl
@[simp] theorem setI_events (v : Word) : (s.setI v).events = s.events := rfl
@[simp] theorem setI_draws (v : Word) : (s.setI v).draws = s.draws := rfl
@[simp] theorem setI_getV (v : Word) (r : Nib) : (s.setI v).getV r = s.getV r := rfl

/-! ### `setPc` -/

@[simp] theorem setPc_mem (v : Word) : (s.setPc v).mem = s.mem := rfl
@[simp] theorem setPc_V (v : Word) : (s.setPc v).V = s.V := rfl
@[simp] theorem setPc_I (v : Word) : (s.setPc v).I = s.I := rfl
@[simp] theorem setPc_pc (v : Word) : (s.setPc v).pc = v := rfl
@[simp] theorem setPc_stack (v : Word) : (s.setPc v).stack = s.stack := rfl
@[simp] theorem setPc_sp (v : Word) : (s.setPc v).sp = s.sp := rfl
@[simp] theorem setPc_dt (v : Word) : (s.setPc v).dt = s.dt := rfl
@[simp] theorem setPc_st (v : Word) : (s.setPc v).st = s.st := rfl
@[simp] theorem setPc_disp (v : Word) : (s.setPc v).disp = s.disp := rfl
@[simp] theorem setPc_keys (v : Word) : (s.setPc v).keys = s.keys := rfl
@[simp] theorem setPc_ir (v : Word) : (s.setPc v).ir = s.ir := rfl
@[simp] theorem setPc_redraw (v : Word) : (s.setPc v).redraw = s.redraw := rfl
@[simp] theorem setPc_mode (v : Word) : (s.setPc v).mode = s.mode := rfl
@[simp] theorem setPc_err (v : Word) : (s.setPc v).err = s.err := rfl
@[simp] theorem setPc_pins (v : Word) : (s.setPc v).pins = s.pins := rfl
@[simp] theorem setPc_events (v : Word) : (s.setPc v).events = s.events := rfl
@[simp] theorem setPc_draws (v : Word) : (s.setPc v).draws = s.draws := rfl
@[simp] theorem setPc_getV (v : Word) (r : Nib) : (s.setPc v).getV r = s.getV r := rfl

/-! ### `setMem` -/

@[simp] theorem setMem_mem (m : Memory) : (s.setMem m).mem = m := rfl
@[simp] theorem setMem_V (m : Memory) : (s.setMem m).V = s.V := rfl
@[simp] theorem setMem_I (m : Memory) : (s.setMem m).I = s.I := rfl
@[simp] theorem setMem_pc (m : Memory) : (s.setMem m).pc = s.pc := rfl
@[simp] theorem setMem_stack (m : Memory) : (s.setMem m).stack = s.stack := rfl
@[simp] theorem setMem_sp (m : Memory) : (s.setMem m).sp = s.sp := rfl
@[simp] theorem setMem_dt (m : Memory) : (s.setMem m).dt = s.dt := rfl
@[simp] theorem setMem_st (m : Memory) : (s.setMem m).st = s.st := rfl
@[simp] theorem setMem_disp (m : Memory) : (s.setMem m).disp = s.disp := rfl
@[simp] theorem setMem_keys (m : Memory) : (s.setMem m).keys = s.keys := rfl
@[simp] theorem setMem_ir (m : Memory) : (s.setMem m).ir = s.ir := rfl
@[simp] theorem setMem_redraw (m : Memory) : (s.setMem m).redraw = s.redraw := rfl
@[simp] theorem setMem_mode (m : Memory) : (s.setMem m).mode = s.mode := rfl
@[simp] theorem setMem_err (m : Memory) : (s.setMem m).err = s.err := rfl
@[simp] theorem setMem_pins (m : Memory) : (s.setMem m).pins = s.pins := rfl
@[simp] theorem setMem_events (m : Memory) : (s.setMem m).events = s.events := rfl
@[simp] theorem setMem_draws (m : Memory) : (s.setMem m).draws = s.draws := rfl
@[simp] theorem setMem_getV (m : Memory) (r : Nib) : (s.setMem m).getV r = s.getV r := rfl

/-! ### `setDt` -/

@[simp] theorem setDt_mem (v : Byte) : (s.setDt v).mem = s.mem := rfl
@[simp] theorem setDt_V (v : Byte) : (s.setDt v).V = s.V := rfl
@[simp] theorem setDt_I (v : Byte) : (s.setDt v).I = s.I := rfl
@[simp] theorem setDt_pc (v : Byte) : (s.setDt v).pc = s.pc := rfl
@[simp] theorem setDt_stack (v : Byte) : (s.setDt v).stack = s.stack := rfl
@[simp] theorem setDt_sp (v : Byte) : (s.setDt v).sp = s.sp := rfl
@[simp] theorem setDt_dt (v : Byte) : (s.setDt v).dt = v := rfl
@[simp] theorem setDt_st (v : Byte) : (s.setDt v).st = s.st := rfl
@[simp] theorem setDt_disp (v : Byte) : (s.setDt v).disp = s.disp := rfl
@[simp] theorem setDt_keys (v : Byte) : (s.setDt v).keys = s.keys := rfl
@[simp] theorem setDt_ir (v : Byte) : (s.setDt v).ir = s.ir := rfl
@[simp] theorem setDt_redraw (v : Byte) : (s.setDt v).redraw = s.redraw := rfl
@[simp] theorem setDt_mode (v : Byte) : (s.setDt v).mode = s.mode := rfl
@[simp] theorem setDt_err (v : Byte) : (s.setDt v).err = s.err := rfl
@[simp] theorem setDt_pins (v : Byte) : (s.setDt v).pins = s.pins := rfl
@[simp] theorem setDt_events (v : Byte) : (s.setDt v).events = s.events := rfl
@[simp] theorem setDt_draws (v : Byte) : (s.setDt v).draws = s.draws := rfl
@[simp] theorem setDt_getV (v : Byte) (r : Nib) : (s.setDt v).getV r = s.getV r := rfl

/-! ### `setSt` -/

@[simp] theorem setSt_mem (v : Byte) : (s.setSt v).mem = s.mem := rfl
@[simp] theorem setSt_V (v : Byte) : (s.setSt v).V = s.V := rfl
@[simp] theorem setSt_I (v : Byte) : (s.setSt v).I = s.I := rfl
@[simp] theorem setSt_pc (v : Byte) : (s.setSt v).pc = s.pc := rfl
@[simp] theorem setSt_stack (v : Byte) : (s.setSt v).stack = s.stack := rfl
@[simp] theorem setSt_sp (v : Byte) : (s.setSt v).sp = s.sp := rfl
@[simp] theorem setSt_dt (v : Byte) : (s.setSt v).dt = s.dt := rfl
@[simp] theorem setSt_st (v : Byte) : (s.setSt v).st = v := rfl
@[simp] theorem setSt_disp (v : Byte) : (s.setSt v).disp = s.disp := rfl
@[simp] theorem setSt_keys (v : Byte) : (s.setSt v).keys = s.keys := rfl
@[simp] theorem setSt_ir (v : Byte) : (s.setSt v).ir = s.ir := rfl
@[simp] theorem setSt_redraw (v : Byte) : (s.setSt v).redraw = s.redraw := rfl
@[simp] theorem setSt_mode (v : Byte) : (s.setSt v).mode = s.mode := rfl
@[simp] theorem setSt_err (v : Byte) : (s.setSt v).err = s.err := rfl
@[simp] theorem setSt_pins (v : Byte) : (s.setSt v).pins = s.pins := rfl
@[simp] theorem setSt_events (v : Byte) : (s.setSt v).events = s.events := rfl
@[simp] theorem setSt_draws (v : Byte) : (s.setSt v).draws = s.draws := rfl
@[simp] theorem setSt_getV (v : Byte) (r : Nib) : (s.setSt v).getV r = s.getV r := rfl

/-! ### `setKeys` -/

@[simp] theorem setKeys_mem (k : BitVec 16) : (s.setKeys k).mem = s.mem := rfl
@[simp] theorem setKeys_V (k : BitVec 16) : (s.setKeys k).V = s.V := rfl
@[simp] theorem setKeys_I (k : BitVec 16) : (s.setKeys k).I = s.I := rfl
@[simp] theorem setKeys_pc (k : BitVec 16) : (s.setKeys k).pc = s.pc := rfl
@[simp] theorem setKeys_stack (k : BitVec 16) : (s.setKeys k).stack = s.stack := rfl
@[simp] theorem setKeys_sp (k : BitVec 16) : (s.setKeys k).sp = s.sp := rfl
@[simp] theorem setKeys_dt (k : BitVec 16) : (s.setKeys k).dt = s.dt := rfl
@[simp] theorem setKeys_st (k : BitVec 16) : (s.setKeys k).st = s.st := rfl
@[simp] theorem setKeys_disp (k : BitVec 16) : (s.setKeys k).disp = s.disp := rfl
@[simp] theorem setKeys_keys (k : BitVec 16) : (s.setKeys k).keys = k := rfl
@[simp] theorem setKeys_ir (k : BitVec 16) : (s.setKeys k).ir = s.ir := rfl
@[simp] theorem setKeys_redraw (k : BitVec 16) : (s.setKeys k).redraw = s.redraw := rfl
@[simp] theorem setKeys_mode (k : BitVec 16) : (s.setKeys k).mode = s.mode := rfl
@[simp] theorem setKeys_err (k : BitVec 16) : (s.setKeys k).err = s.err := rfl
@[simp] theorem setKeys_pins (k : BitVec 16) : (s.setKeys k).pins = s.pins := rfl
@[simp] theorem setKeys_events (k : BitVec 16) : (s.setKeys k).events = s.events := rfl
@[simp] theorem setKeys_draws (k : BitVec 16) : (s.setKeys k).draws = s.draws := rfl
@[simp] theorem setKeys_getV (k : BitVec 16) (r : Nib) : (s.setKeys k).getV r = s.getV r := rfl

/-! ### `setMode` -/

@[simp] theorem setMode_mem (m : Mode) : (s.setMode m).mem = s.mem := rfl
@[simp] theorem setMode_V (m : Mode) : (s.setMode m).V = s.V := rfl
@[simp] theorem setMode_I (m : Mode) : (s.setMode m).I = s.I := rfl
@[simp] theorem setMode_pc (m : Mode) : (s.setMode m).pc = s.pc := rfl
@[simp] theorem setMode_stack (m : Mode) : (s.setMode m).stack = s.stack := rfl
@[simp] theorem setMode_sp (m : Mode) : (s.setMode m).sp = s.sp := rfl
@[simp] theorem setMode_dt (m : Mode) : (s.setMode m).dt = s.dt := rfl
@[simp] theorem setMode_st (m : Mode) : (s.setMode m).st = s.st := rfl
@[simp] theorem setMode_disp (m : Mode) : (s.setMode m).disp = s.disp := rfl
@[simp] theorem setMode_keys (m : Mode) : (s.setMode m).keys = s.keys := rfl
@[simp] theorem setMode_ir (m : Mode) : (s.setMode m).ir = s.ir := rfl
@[simp] theorem setMode_redraw (m : Mode) : (s.setMode m).redraw = s.redraw := rfl
@[simp] theorem setMode_mode (m : Mode) : (s.setMode m).mode = m := rfl
@[simp] theorem setMode_err (m : Mode) : (s.setMode m).err = s.err := rfl
@[simp] theorem setMode_pins (m : Mode) : (s.setMode m).pins = s.pins := rfl
@[simp] theorem setMode_events (m : Mode) : (s.setMode m).events = s.events := rfl
@[simp] theorem setMode_draws (m : Mode) : (s.setMode m).draws = s.draws := rfl
@[simp] theorem setMode_getV (m : Mode) (r : Nib) : (s.setMode m).getV r = s.getV r := rfl

/-! ### `setDisp` -/

@[simp] theorem setDisp_mem (d : Display) : (s.setDisp d).mem = s.mem := rfl
@[simp] theorem setDisp_V (d : Display) : (s.setDisp d).V = s.V := rfl
@[simp] theorem setDisp_I (d : Display) : (s.setDisp d).I = s.I := rfl
@[simp] theorem setDisp_pc (d : Display) : (s.setDisp d).pc = s.pc := rfl
@[simp] theorem setDisp_stack (d : Display) : (s.setDisp d).stack = s.stack := rfl
@[simp] theorem setDisp_sp (d : Display) : (s.setDisp d).sp = s.sp := rfl
@[simp] theorem setDisp_dt (d : Display) : (s.setDisp d).dt = s.dt := rfl
@[simp] theorem setDisp_st (d : Display) : (s.setDisp d).st = s.st := rfl
@[simp] theorem setDisp_disp (d : Display) : (s.setDisp d).disp = d := rfl
@[simp] theorem setDisp_keys (d : Display) : (s.setDisp d).keys = s.keys := rfl
@[simp] theorem setDisp_ir (d : Display) : (s.setDisp d).ir = s.ir := rfl
@[simp] theorem setDisp_redraw (d : Display) : (s.setDisp d).redraw = true := rfl
@[simp] theorem setDisp_mode (d : Display) : (s.setDisp d).mode = s.mode := rfl
@[simp] theorem setDisp_err (d : Display) : (s.setDisp d).err = s.err := rfl
@[simp] theorem setDisp_pins (d : Display) : (s.setDisp d).pins = s.pins := rfl
@[simp] theorem setDisp_events (d : Display) : (s.setDisp d).events = s.events := rfl
@[simp] theorem setDisp_draws (d : Display) : (s.setDisp d).draws = s.draws := rfl
@[simp] theorem setDisp_getV (d : Display) (r : Nib) : (s.setDisp d).getV r = s.getV r := rfl

/-! ### `setIr` -/

@[simp] theorem setIr_mem (w : Word) : (s.setIr w).mem = s.mem := rfl
@[simp] theorem setIr_V (w : Word) : (s.setIr w).V = s.V := rfl
@[simp] theorem setIr_I (w : Word) : (s.setIr w).I = s.I := rfl
@[simp] theorem setIr_pc (w : Word) : (s.setIr w).pc = s.pc := rfl
@[simp] theorem setIr_stack (w : Word) : (s.setIr w).stack = s.stack := rfl
@[simp] theorem setIr_sp (w : Word) : (s.setIr w).sp = s.sp := rfl
@[simp] theorem setIr_dt (w : Word) : (s.setIr w).dt = s.dt := rfl
@[simp] theorem setIr_st (w : Word) : (s.setIr w).st = s.st := rfl
@[simp] theorem setIr_disp (w : Word) : (s.setIr w).disp = s.disp := rfl
@[simp] theorem setIr_keys (w : Word) : (s.setIr w).keys = s.keys := rfl
@[simp] theorem setIr_ir (w : Word) : (s.setIr w).ir = w := rfl
@[simp] theorem setIr_redraw (w : Word) : (s.setIr w).redraw = s.redraw := rfl
@[simp] theorem setIr_mode (w : Word) : (s.setIr w).mode = s.mode := rfl
@[simp] theorem setIr_err (w : Word) : (s.setIr w).err = s.err := rfl
@[simp] theorem setIr_pins (w : Word) : (s.setIr w).pins = s.pins := rfl
@[simp] theorem setIr_events (w : Word) : (s.setIr w).events = s.events := rfl
@[simp] theorem setIr_draws (w : Word) : (s.setIr w).draws = s.draws := rfl
@[simp] theorem setIr_getV (w : Word) (r : Nib) : (s.setIr w).getV r = s.getV r := rfl

/-! ### `raise` -/

@[simp] theorem raise_mem (e : ExecError) : (s.raise e).mem = s.mem := rfl
@[simp] theorem raise_V (e : ExecError) : (s.raise e).V = s.V := rfl
@[simp] theorem raise_I (e : ExecError) : (s.raise e).I = s.I := rfl
@[simp] theorem raise_pc (e : ExecError) : (s.raise e).pc = s.pc := rfl
@[simp] theorem raise_stack (e : ExecError) : (s.raise e).stack = s.stack := rfl
@[simp] theorem raise_sp (e : ExecError) : (s.raise e).sp = s.sp := rfl
@[simp] theorem raise_dt (e : ExecError) : (s.raise e).dt = s.dt := rfl
@[simp] theorem raise_st (e : ExecError) : (s.raise e).st = s.st := rfl
@[simp] theorem raise_disp (e : ExecError) : (s.raise e).disp = s.disp := rfl
@[simp] theorem raise_keys (e : ExecError) : (s.raise e).keys = s.keys := rfl
@[simp] theorem raise_ir (e : ExecError) : (s.raise e).ir = s.ir := rfl
@[simp] theorem raise_redraw (e : ExecError) : (s.raise e).redraw = s.redraw := rfl
@[simp] theorem raise_mode (e : ExecError) : (s.raise e).mode = .halted := rfl
@[simp] theorem raise_err (e : ExecError) : (s.raise e).err = some e := rfl
@[simp] theorem raise_pins (e : ExecError) : (s.raise e).pins = s.pins := rfl
@[simp] theorem raise_events (e : ExecError) : (s.raise e).events = s.events := rfl
@[simp] theorem raise_draws (e : ExecError) : (s.raise e).draws = s.draws := rfl
@[simp] theorem raise_getV (e : ExecError) (r : Nib) : (s.raise e).getV r = s.getV r := rfl

/-! ### `advance` -/

@[simp] theorem advance_mem : (s.advance).mem = s.mem := rfl
@[simp] theorem advance_V : (s.advance).V = s.V := rfl
@[simp] theorem advance_I : (s.advance).I = s.I := rfl
@[simp] theorem advance_pc : (s.advance).pc = s.pc + 2 := rfl
@[simp] theorem advance_stack : (s.advance).stack = s.stack := rfl
@[simp] theorem advance_sp : (s.advance).sp = s.sp := rfl
@[simp] theorem advance_dt : (s.advance).dt = s.dt := rfl
@[simp] theorem advance_st : (s.advance).st = s.st := rfl
@[simp] theorem advance_disp : (s.advance).disp = s.disp := rfl
@[simp] theorem advance_keys : (s.advance).keys = s.keys := rfl
@[simp] theorem advance_ir : (s.advance).ir = s.ir := rfl
@[simp] theorem advance_redraw : (s.advance).redraw = s.redraw := rfl
@[simp] theorem advance_mode : (s.advance).mode = s.mode := rfl
@[simp] theorem advance_err : (s.advance).err = s.err := rfl
@[simp] theorem advance_pins : (s.advance).pins = s.pins := rfl
@[simp] theorem advance_events : (s.advance).events = s.events := rfl
@[simp] theorem advance_draws : (s.advance).draws = s.draws := rfl
@[simp] theorem advance_getV (r : Nib) : (s.advance).getV r = s.getV r := rfl

/-! ### `skipIf` -/

@[simp] theorem skipIf_mem (c : Bool) : (s.skipIf c).mem = s.mem := rfl
@[simp] theorem skipIf_V (c : Bool) : (s.skipIf c).V = s.V := rfl
@[simp] theorem skipIf_I (c : Bool) : (s.skipIf c).I = s.I := rfl
@[simp] theorem skipIf_pc (c : Bool) : (s.skipIf c).pc = if c then s.pc + 4 else s.pc + 2 := rfl
@[simp] theorem skipIf_stack (c : Bool) : (s.skipIf c).stack = s.stack := rfl
@[simp] theorem skipIf_sp (c : Bool) : (s.skipIf c).sp = s.sp := rfl
@[simp] theorem skipIf_dt (c : Bool) : (s.skipIf c).dt = s.dt := rfl
@[simp] theorem skipIf_st (c : Bool) : (s.skipIf c).st = s.st := rfl
@[simp] theorem skipIf_disp (c : Bool) : (s.skipIf c).disp = s.disp := rfl
@[simp] theorem skipIf_keys (c : Bool) : (s.skipIf c).keys = s.keys := rfl
@[simp] theorem skipIf_ir (c : Bool) : (s.skipIf c).ir = s.ir := rfl
@[simp] theorem skipIf_redraw (c : Bool) : (s.skipIf c).redraw = s.redraw := rfl
@[simp] theorem skipIf_mode (c : Bool) : (s.skipIf c).mode = s.mode := rfl
@[simp] theorem skipIf_err (c : Bool) : (s.skipIf c).err = s.err := rfl
@[simp] theorem skipIf_pins (c : Bool) : (s.skipIf c).pins = s.pins := rfl
@[simp] theorem skipIf_events (c : Bool) : (s.skipIf c).events = s.events := rfl
@[simp] theorem skipIf_draws (c : Bool) : (s.skipIf c).draws = s.draws := rfl
@[simp] theorem skipIf_getV (c : Bool) (r : Nib) : (s.skipIf c).getV r = s.getV r := rfl

/-! ### `push` -/

@[simp] theorem push_mem (v : Word) (h : s.sp.val < 16) : (s.push v h).mem = s.mem := rfl
@[simp] theorem push_V (v : Word) (h : s.sp.val < 16) : (s.push v h).V = s.V := rfl
@[simp] theorem push_I (v : Word) (h : s.sp.val < 16) : (s.push v h).I = s.I := rfl
@[simp] theorem push_pc (v : Word) (h : s.sp.val < 16) : (s.push v h).pc = s.pc := rfl
@[simp] theorem push_stack (v : Word) (h : s.sp.val < 16) : (s.push v h).stack = s.stack.set s.sp.val v := rfl
@[simp] theorem push_sp (v : Word) (h : s.sp.val < 16) : (s.push v h).sp = ⟨s.sp.val + 1, by omega⟩ := rfl
@[simp] theorem push_dt (v : Word) (h : s.sp.val < 16) : (s.push v h).dt = s.dt := rfl
@[simp] theorem push_st (v : Word) (h : s.sp.val < 16) : (s.push v h).st = s.st := rfl
@[simp] theorem push_disp (v : Word) (h : s.sp.val < 16) : (s.push v h).disp = s.disp := rfl
@[simp] theorem push_keys (v : Word) (h : s.sp.val < 16) : (s.push v h).keys = s.keys := rfl
@[simp] theorem push_ir (v : Word) (h : s.sp.val < 16) : (s.push v h).ir = s.ir := rfl
@[simp] theorem push_redraw (v : Word) (h : s.sp.val < 16) : (s.push v h).redraw = s.redraw := rfl
@[simp] theorem push_mode (v : Word) (h : s.sp.val < 16) : (s.push v h).mode = s.mode := rfl
@[simp] theorem push_err (v : Word) (h : s.sp.val < 16) : (s.push v h).err = s.err := rfl
@[simp] theorem push_pins (v : Word) (h : s.sp.val < 16) : (s.push v h).pins = s.pins := rfl
@[simp] theorem push_events (v : Word) (h : s.sp.val < 16) : (s.push v h).events = s.events := rfl
@[simp] theorem push_draws (v : Word) (h : s.sp.val < 16) : (s.push v h).draws = s.draws := rfl
@[simp] theorem push_getV (v : Word) (h : s.sp.val < 16) (r : Nib) : (s.push v h).getV r = s.getV r := rfl

/-! ### `drop` -/

@[simp] theorem drop_mem (h : 0 < s.sp.val) : (s.drop h).mem = s.mem := rfl
@[simp] theorem drop_V (h : 0 < s.sp.val) : (s.drop h).V = s.V := rfl
@[simp] theorem drop_I (h : 0 < s.sp.val) : (s.drop h).I = s.I := rfl
@[simp] theorem drop_pc (h : 0 < s.sp.val) : (s.drop h).pc = s.pc := rfl
@[simp] theorem drop_stack (h : 0 < s.sp.val) : (s.drop h).stack = s.stack := rfl
@[simp] theorem drop_sp (h : 0 < s.sp.val) : (s.drop h).sp = ⟨s.sp.val - 1, by have := s.sp.isLt; omega⟩ := rfl
@[simp] theorem drop_dt (h : 0 < s.sp.val) : (s.drop h).dt = s.dt := rfl
@[simp] theorem drop_st (h : 0 < s.sp.val) : (s.drop h).st = s.st := rfl
@[simp] theorem drop_disp (h : 0 < s.sp.val) : (s.drop h).disp = s.disp := rfl
@[simp] theorem drop_keys (h : 0 < s.sp.val) : (s.drop h).keys = s.keys := rfl
@[simp] theorem drop_ir (h : 0 < s.sp.val) : (s.drop h).ir = s.ir := rfl
@[simp] theorem drop_redraw (h : 0 < s.sp.val) : (s.drop h).redraw = s.redraw := rfl
@[simp] theorem drop_mode (h : 0 < s.sp.val) : (s.drop h).mode = s.mode := rfl
@[simp] theorem drop_err (h : 0 < s.sp.val) : (s.drop h).err = s.err := rfl
@[simp] theorem drop_pins (h : 0 < s.sp.val) : (s.drop h).pins = s.pins := rfl
@[simp] theorem drop_events (h : 0 < s.sp.val) : (s.drop h).events = s.events := rfl
@[simp] theorem drop_draws (h : 0 < s.sp.val) : (s.drop h).draws = s.draws := rfl
@[simp] theorem drop_getV (h : 0 < s.sp.val) (r : Nib) : (s.drop h).getV r = s.getV r := rfl

/-! ### `setResultAndFlag` -/

@[simp] theorem setResultAndFlag_mem (x : Nib) (r f : Byte) : (s.setResultAndFlag x r f).mem = s.mem := rfl
@[simp] theorem setResultAndFlag_V (x : Nib) (r f : Byte) : (s.setResultAndFlag x r f).V = (s.V.set x.val r).set 15 f := rfl
@[simp] theorem setResultAndFlag_I (x : Nib) (r f : Byte) : (s.setResultAndFlag x r f).I = s.I := rfl
@[simp] theorem setResultAndFlag_pc (x : Nib) (r f : Byte) : (s.setResultAndFlag x r f).pc = s.pc := rfl
@[simp] theorem setResultAndFlag_stack (x : Nib) (r f : Byte) : (s.setResultAndFlag x r f).stack = s.stack := rfl
@[simp] theorem setResultAndFlag_sp (x : Nib) (r f : Byte) : (s.setResultAndFlag x r f).sp = s.sp := rfl
@[simp] theorem setResultAndFlag_dt (x : Nib) (r f : Byte) : (s.setResultAndFlag x r f).dt = s.dt := rfl
@[simp] theorem setResultAndFlag_st (x : Nib) (r f : Byte) : (s.setResultAndFlag x r f).st = s.st := rfl
@[simp] theorem setResultAndFlag_disp (x : Nib) (r f : Byte) : (s.setResultAndFlag x r f).disp = s.disp := rfl
@[simp] theorem setResultAndFlag_keys (x : Nib) (r f : Byte) : (s.setResultAndFlag x r f).keys = s.keys := rfl
@[simp] theorem setResultAndFlag_ir (x : Nib) (r f : Byte) : (s.setResultAndFlag x r f).ir = s.ir := rfl
@[simp] theorem setResultAndFlag_redraw (x : Nib) (r f : Byte) : (s.setResultAndFlag x r f).redraw = s.redraw := rfl
@[simp] theorem setResultAndFlag_mode (x : Nib) (r f : Byte) : (s.setResultAndFlag x r f).mode = s.mode := rfl
@[simp] theorem setResultAndFlag_err (x : Nib) (r f : Byte) : (s.setResultAndFlag x r f).err = s.err := rfl
@[simp] theorem setResultAndFlag_pins (x : Nib) (r f : Byte) : (s.setResultAndFlag x r f).pins = s.pins := rfl
@[simp] theorem setResultAndFlag_events (x : Nib) (r f : Byte) : (s.setResultAndFlag x r f).events = s.events := rfl
@[simp] theorem setResultAndFlag_draws (x : Nib) (r f : Byte) : (s.setResultAndFlag x r f).draws = s.draws := rfl

/-! ### `renderAck` -/

@[simp] theorem renderAck_mem : (s.renderAck).mem = s.mem := rfl
@[simp] theorem renderAck_V : (s.renderAck).V = s.V := rfl
@[simp] theorem renderAck_I : (s.renderAck).I = s.I := rfl
@[simp] theorem renderAck_pc : (s.renderAck).pc = s.pc := rfl
@[simp] theorem renderAck_stack : (s.renderAck).stack = s.stack := rfl
@[simp] theorem renderAck_sp : (s.renderAck).sp = s.sp := rfl
@[simp] theorem renderAck_dt : (s.renderAck).dt = s.dt := rfl
@[simp] theorem renderAck_st : (s.renderAck).st = s.st := rfl
@[simp] theorem renderAck_disp : (s.renderAck).disp = s.disp := rfl
@[simp] theorem renderAck_keys : (s.renderAck).keys = s.keys := rfl
@[simp] theorem renderAck_ir : (s.renderAck).ir = s.ir := rfl
@[simp] theorem renderAck_redraw : (s.renderAck).redraw = false := rfl
@[simp] theorem renderAck_mode : (s.renderAck).mode = s.mode := rfl
@[simp] theorem renderAck_err : (s.renderAck).err = s.err := rfl
@[simp] theorem renderAck_pins : (s.renderAck).pins = s.pins := rfl
@[simp] theorem renderAck_events : (s.renderAck).events = s.events := rfl
@[simp] theorem renderAck_draws : (s.renderAck).draws = s.draws := rfl
@[simp] theorem renderAck_getV (r : Nib) : (s.renderAck).getV r = s.getV r := rfl

/-! ### `timerTick` -/

@[simp] theorem timerTick_mem : (s.timerTick).mem = s.mem := rfl
@[simp] theorem timerTick_V : (s.timerTick).V = s.V := rfl
@[simp] theorem timerTick_I : (s.timerTick).I = s.I := rfl
@[simp] theorem timerTick_pc : (s.timerTick).pc = s.pc := rfl
@[simp] theorem timerTick_stack : (s.timerTick).stack = s.stack := rfl
@[simp] theorem timerTick_sp : (s.timerTick).sp = s.sp := rfl
@[simp] theorem timerTick_dt : (s.timerTick).dt = decayWhen true s.dt := rfl
@[simp] theorem timerTick_st : (s.timerTick).st = decayWhen true s.st := rfl
@[simp] theorem timerTick_disp : (s.timerTick).disp = s.disp := rfl
@[simp] theorem timerTick_keys : (s.timerTick).keys = s.keys := rfl
@[simp] theorem timerTick_ir : (s.timerTick).ir = s.ir := rfl
@[simp] theorem timerTick_redraw : (s.timerTick).redraw = s.redraw := rfl
@[simp] theorem timerTick_mode : (s.timerTick).mode = s.mode := rfl
@[simp] theorem timerTick_err : (s.timerTick).err = s.err := rfl
@[simp] theorem timerTick_pins : (s.timerTick).pins = s.pins := rfl
@[simp] theorem timerTick_events : (s.timerTick).events = s.events := rfl
@[simp] theorem timerTick_draws : (s.timerTick).draws = s.draws := rfl
@[simp] theorem timerTick_getV (r : Nib) : (s.timerTick).getV r = s.getV r := rfl

/-! ### `timerPhase` -/

@[simp] theorem timerPhase_mem (due : Bool) : (s.timerPhase due).mem = s.mem := rfl
@[simp] theorem timerPhase_V (due : Bool) : (s.timerPhase due).V = s.V := rfl
@[simp] theorem timerPhase_I (due : Bool) : (s.timerPhase due).I = s.I := rfl
@[simp] theorem timerPhase_pc (due : Bool) : (s.timerPhase due).pc = s.pc := rfl
@[simp] theorem timerPhase_stack (due : Bool) : (s.timerPhase due).stack = s.stack := rfl
@[simp] theorem timerPhase_sp (due : Bool) : (s.timerPhase due).sp = s.sp := rfl
@[simp] theorem timerPhase_dt (due : Bool) : (s.timerPhase due).dt = decayWhen due s.dt := rfl
@[simp] theorem timerPhase_st (due : Bool) : (s.timerPhase due).st = decayWhen due s.st := rfl
@[simp] theorem timerPhase_disp (due : Bool) : (s.timerPhase due).disp = s.disp := rfl
@[simp] theorem timerPhase_keys (due : Bool) : (s.timerPhase due).keys = s.keys := rfl
@[simp] theorem timerPhase_ir (due : Bool) : (s.timerPhase due).ir = s.ir := rfl
@[simp] theorem timerPhase_redraw (due : Bool) : (s.timerPhase due).redraw = s.redraw := rfl
@[simp] theorem timerPhase_mode (due : Bool) : (s.timerPhase due).mode = s.mode := rfl
@[simp] theorem timerPhase_err (due : Bool) : (s.timerPhase due).err = s.err := rfl
@[simp] theorem timerPhase_pins (due : Bool) : (s.timerPhase due).pins = s.pins := rfl
@[simp] theorem timerPhase_events (due : Bool) : (s.timerPhase due).events = s.events := rfl
@[simp] theorem timerPhase_draws (due : Bool) : (s.timerPhase due).draws = s.draws := rfl
@[simp] theorem timerPhase_getV (due : Bool) (r : Nib) : (s.timerPhase due).getV r = s.getV r := rfl

/-! ### `keySample` -/

@[simp] theorem keySample_mem (k : BitVec 16) : (s.keySample k).mem = s.mem := rfl
@[simp] theorem keySample_V (k : BitVec 16) : (s.keySample k).V = s.V := rfl
@[simp] theorem keySample_I (k : BitVec 16) : (s.keySample k).I = s.I := rfl
@[simp] theorem keySample_pc (k : BitVec 16) : (s.keySample k).pc = s.pc := rfl
@[simp] theorem keySample_stack (k : BitVec 16) : (s.keySample k).stack = s.stack := rfl
@[simp] theorem keySample_sp (k : BitVec 16) : (s.keySample k).sp = s.sp := rfl
@[simp] theorem keySample_dt (k : BitVec 16) : (s.keySample k).dt = s.dt := rfl
@[simp] theorem keySample_st (k : BitVec 16) : (s.keySample k).st = s.st := rfl
@[simp] theorem keySample_disp (k : BitVec 16) : (s.keySample k).disp = s.disp := rfl
@[simp] theorem keySample_keys (k : BitVec 16) : (s.keySample k).keys = k := rfl
@[simp] theorem keySample_ir (k : BitVec 16) : (s.keySample k).ir = s.ir := rfl
@[simp] theorem keySample_redraw (k : BitVec 16) : (s.keySample k).redraw = s.redraw := rfl
@[simp] theorem keySample_mode (k : BitVec 16) : (s.keySample k).mode = s.mode := rfl
@[simp] theorem keySample_err (k : BitVec 16) : (s.keySample k).err = s.err := rfl
@[simp] theorem keySample_pins (k : BitVec 16) : (s.keySample k).pins = s.pins := rfl
@[simp] theorem keySample_events (k : BitVec 16) : (s.keySample k).events = s.events := rfl
@[simp] theorem keySample_draws (k : BitVec 16) : (s.keySample k).draws = s.draws := rfl
@[simp] theorem keySample_getV (k : BitVec 16) (r : Nib) : (s.keySample k).getV r = s.getV r := rfl

/-! ### `setPins` -/

@[simp] theorem setPins_mem (p : CycleInputs) : (s.setPins p).mem = s.mem := rfl
@[simp] theorem setPins_V (p : CycleInputs) : (s.setPins p).V = s.V := rfl
@[simp] theorem setPins_I (p : CycleInputs) : (s.setPins p).I = s.I := rfl
@[simp] theorem setPins_pc (p : CycleInputs) : (s.setPins p).pc = s.pc := rfl
@[simp] theorem setPins_stack (p : CycleInputs) : (s.setPins p).stack = s.stack := rfl
@[simp] theorem setPins_sp (p : CycleInputs) : (s.setPins p).sp = s.sp := rfl
@[simp] theorem setPins_dt (p : CycleInputs) : (s.setPins p).dt = s.dt := rfl
@[simp] theorem setPins_st (p : CycleInputs) : (s.setPins p).st = s.st := rfl
@[simp] theorem setPins_disp (p : CycleInputs) : (s.setPins p).disp = s.disp := rfl
@[simp] theorem setPins_keys (p : CycleInputs) : (s.setPins p).keys = s.keys := rfl
@[simp] theorem setPins_ir (p : CycleInputs) : (s.setPins p).ir = s.ir := rfl
@[simp] theorem setPins_redraw (p : CycleInputs) : (s.setPins p).redraw = s.redraw := rfl
@[simp] theorem setPins_mode (p : CycleInputs) : (s.setPins p).mode = s.mode := rfl
@[simp] theorem setPins_err (p : CycleInputs) : (s.setPins p).err = s.err := rfl
@[simp] theorem setPins_pins (p : CycleInputs) : (s.setPins p).pins = p := rfl
@[simp] theorem setPins_events (p : CycleInputs) : (s.setPins p).events = s.events := rfl
@[simp] theorem setPins_draws (p : CycleInputs) : (s.setPins p).draws = s.draws := rfl
@[simp] theorem setPins_getV (p : CycleInputs) (r : Nib) : (s.setPins p).getV r = s.getV r := rfl

/-! ### Registers: a read after a write -/

theorem getV_eq (r : Nib) : s.getV r = s.V[r.val] := rfl

theorem getV_setV (i r : Nib) (v : Byte) : (s.setV i v).getV r = if r = i then v else s.getV r := by
  simp only [getV, setV, Vector.getElem_set, Fin.ext_iff]
  by_cases h : i.val = r.val <;> simp [h, eq_comm]

@[simp] theorem getV_setV_same (i : Nib) (v : Byte) : (s.setV i v).getV i = v := by simp [getV_setV]

theorem getV_setV_other {i r : Nib} (h : r ≠ i) (v : Byte) : (s.setV i v).getV r = s.getV r := by
  simp [getV_setV, h]

/-- The flag is written last: VF holds the flag, also when the result went to VF (41_load_alu.md R120). -/
theorem getV_setResultAndFlag (x r : Nib) (v f : Byte) :
    (s.setResultAndFlag x v f).getV r = if r = flagReg then f else if r = x then v else s.getV r := by
  simp [setResultAndFlag, getV_setV]

/-! ### The word at `pc` after an update that leaves memory and `pc` alone -/

@[simp] theorem setV_fetchWord (i : Nib) (v : Byte) : (s.setV i v).fetchWord = s.fetchWord := rfl
@[simp] theorem setI_fetchWord (v : Word) : (s.setI v).fetchWord = s.fetchWord := rfl
@[simp] theorem setDt_fetchWord (v : Byte) : (s.setDt v).fetchWord = s.fetchWord := rfl
@[simp] theorem setSt_fetchWord (v : Byte) : (s.setSt v).fetchWord = s.fetchWord := rfl
@[simp] theorem setKeys_fetchWord (k : BitVec 16) : (s.setKeys k).fetchWord = s.fetchWord := rfl
@[simp] theorem setMode_fetchWord (m : Mode) : (s.setMode m).fetchWord = s.fetchWord := rfl
@[simp] theorem setDisp_fetchWord (d : Display) : (s.setDisp d).fetchWord = s.fetchWord := rfl
@[simp] theorem setIr_fetchWord (w : Word) : (s.setIr w).fetchWord = s.fetchWord := rfl
@[simp] theorem raise_fetchWord (e : ExecError) : (s.raise e).fetchWord = s.fetchWord := rfl
@[simp] theorem setPins_fetchWord (p : CycleInputs) : (s.setPins p).fetchWord = s.fetchWord := rfl
@[simp] theorem timerPhase_fetchWord (due : Bool) : (s.timerPhase due).fetchWord = s.fetchWord := rfl
@[simp] theorem keySample_fetchWord (k : BitVec 16) : (s.keySample k).fetchWord = s.fetchWord := rfl
@[simp] theorem renderAck_fetchWord : s.renderAck.fetchWord = s.fetchWord := rfl

/-! ### Taking the host's event -/

@[simp] theorem takeEvent_mem : s.takeEvent.mem = s.mem := by unfold takeEvent; split <;> rfl
@[simp] theorem takeEvent_V : s.takeEvent.V = s.V := by unfold takeEvent; split <;> rfl
@[simp] theorem takeEvent_I : s.takeEvent.I = s.I := by unfold takeEvent; split <;> rfl
@[simp] theorem takeEvent_pc : s.takeEvent.pc = s.pc := by unfold takeEvent; split <;> rfl
@[simp] theorem takeEvent_stack : s.takeEvent.stack = s.stack := by unfold takeEvent; split <;> rfl
@[simp] theorem takeEvent_sp : s.takeEvent.sp = s.sp := by unfold takeEvent; split <;> rfl
@[simp] theorem takeEvent_dt : s.takeEvent.dt = s.dt := by unfold takeEvent; split <;> rfl
@[simp] theorem takeEvent_st : s.takeEvent.st = s.st := by unfold takeEvent; split <;> rfl
@[simp] theorem takeEvent_disp : s.takeEvent.disp = s.disp := by unfold takeEvent; split <;> rfl
@[simp] theorem takeEvent_keys : s.takeEvent.keys = s.keys := by unfold takeEvent; split <;> rfl
@[simp] theorem takeEvent_ir : s.takeEvent.ir = s.ir := by unfold takeEvent; split <;> rfl
@[simp] theorem takeEvent_mode : s.takeEvent.mode = s.mode := by unfold takeEvent; split <;> rfl
@[simp] theorem takeEvent_err : s.takeEvent.err = s.err := by unfold takeEvent; split <;> rfl
@[simp] theorem takeEvent_pins : s.takeEvent.pins = s.pins := by unfold takeEvent; split <;> rfl
@[simp] theorem takeEvent_getV (r : Nib) : s.takeEvent.getV r = s.getV r := by simp [getV]
@[simp] theorem takeEvent_fetchWord : s.takeEvent.fetchWord = s.fetchWord := by simp [fetchWord]

end Sys2Proof.Machine.State
end

