-- ==== Sys2Proof/Laws/Memory.lean ====
section
/-! SUPPORT. The laws of memory: what a read after a write gives, and that every operation keeps the canonical form. -/

namespace Sys2Proof.Machine

/-! ### Lists of cells -/

theorem lookupCell_insertCell (a b : Nat) (v d : Byte) (l : List Host.Cell) :
    lookupCell b d (insertCell a v l) = if b = a then v else lookupCell b d l := by
  induction l with
  | nil => simp [insertCell, lookupCell, eq_comm]
  | cons p t ih =>
    obtain ⟨c, w⟩ := p
    simp only [insertCell]
    split
    · simp [lookupCell, eq_comm]
    · split
      · rename_i hac
        subst hac
        by_cases h : b = a
        · simp [lookupCell, h]
        · have h' : ¬a = b := fun e => h e.symm
          simp [lookupCell, h, h']
      · by_cases h : c = b
        · subst h; simp [lookupCell, Ne.symm ‹¬a = c›]
        · simp [lookupCell, h, ih]

theorem lookupCell_eraseCell (a b : Nat) (d : Byte) (l : List Host.Cell) :
    lookupCell b d (eraseCell a l) = if b = a then d else lookupCell b d l := by
  induction l with
  | nil => simp [eraseCell, lookupCell]
  | cons p t ih =>
    obtain ⟨c, w⟩ := p
    simp only [eraseCell]
    split
    · rename_i hca
      subst hca
      by_cases h : b = c
      · rw [ih, if_pos h, if_pos h]
      · have h' : ¬c = b := fun e => h e.symm
        simp [lookupCell, ih, h, h']
    · by_cases h : c = b
      · subst h; simp [lookupCell, *]
      · simp [lookupCell, h, ih]

namespace Memory

variable (m : Memory)

@[simp] theorem write_font (a : Nat) (v : Byte) : (m.write a v).font = m.font := rfl

@[simp] theorem writeBytes_font (a : Nat) (vs : List Byte) : (m.writeBytes a vs).font = m.font := by
  induction vs generalizing m a with
  | nil => rfl
  | cons v vs ih => simp [writeBytes, ih]

@[simp] theorem write_unlisted (a b : Nat) (v : Byte) : (m.write a v).unlisted b = m.unlisted b := rfl

/-! ### Reads after writes -/

/-- The memory sees the low 12 bits of an address (20_memory.md R42). -/
theorem read_mod (a : Nat) : m.read (a % Config.memSize) = m.read a := by simp [read]

theorem read_write (a b : Nat) (v : Byte) :
    (m.write a v).read b = if b % Config.memSize = a % Config.memSize then v else m.read b := by
  simp only [read, write_unlisted]
  by_cases h : v = m.unlisted (a % Config.memSize)
  · rw [write, if_pos h, lookupCell_eraseCell]
    split
    · rename_i hab; rw [hab, h]
    · rfl
  · rw [write, if_neg h, lookupCell_insertCell]

theorem read_write_same (a : Nat) (v : Byte) : (m.write a v).read a = v := by simp [read_write]

theorem read_write_other {a b : Nat} (h : b % Config.memSize ≠ a % Config.memSize) (v : Byte) :
    (m.write a v).read b = m.read b := by simp [read_write, h]

/-- A run of byte writes leaves every other cell alone. -/
theorem read_writeBytes_outside (a b : Nat) (vs : List Byte)
    (h : ∀ k, k < vs.length → b % Config.memSize ≠ (a + k) % Config.memSize) :
    (m.writeBytes a vs).read b = m.read b := by
  induction vs generalizing m a with
  | nil => rfl
  | cons v vs ih =>
    have h0 := h 0 (by simp)
    rw [writeBytes, ih]
    · exact read_write_other m (by simpa using h0) v
    · intro k hk
      have := h (k + 1) (by simpa using hk)
      rwa [Nat.add_assoc, Nat.add_comm 1 k]

/-- A run of at most 4096 byte writes puts each byte at its address. -/
theorem read_writeBytes_inside (a k : Nat) (vs : List Byte) (hk : k < vs.length)
    (hlen : vs.length ≤ Config.memSize) : (m.writeBytes a vs).read (a + k) = vs[k] := by
  induction vs generalizing m a k with
  | nil => simp at hk
  | cons v vs ih =>
    simp only [List.length_cons, Config.memSize] at hk hlen
    cases k with
    | zero =>
      rw [writeBytes, read_writeBytes_outside]
      · simp [read_write_same]
      · intro j hj; simp only [Config.memSize]; omega
    | succ k =>
      have := ih (m.write a v) (a + 1) k (by omega) (by simp only [Config.memSize]; omega)
      rw [writeBytes, ← Nat.add_assoc, Nat.add_right_comm]
      simpa using this

/-! ### The canonical form -/

theorem cellsWf_mono {lo lo' : Nat} (h : lo' ≤ lo) {l : List Host.Cell} (hw : m.cellsWf lo l = true) :
    m.cellsWf lo' l = true := by
  cases l with
  | nil => rfl
  | cons p t =>
    simp only [cellsWf, Bool.and_eq_true, decide_eq_true_eq] at hw ⊢
    exact ⟨⟨⟨by omega, hw.1.1.2⟩, hw.1.2⟩, hw.2⟩

theorem cellsWf_insertCell {lo a : Nat} {v : Byte} (hlo : lo ≤ a) (ha : a < Config.memSize) (hv : v ≠ m.unlisted a)
    {l : List Host.Cell} (hw : m.cellsWf lo l = true) : m.cellsWf lo (insertCell a v l) = true := by
  induction l generalizing lo with
  | nil => simp [insertCell, cellsWf, hlo, ha, hv]
  | cons p t ih =>
    obtain ⟨b, w⟩ := p
    simp only [cellsWf, Bool.and_eq_true, decide_eq_true_eq] at hw
    obtain ⟨⟨⟨h1, h2⟩, h3⟩, h4⟩ := hw
    simp only [insertCell]
    split
    · rename_i hab
      simp only [cellsWf, Bool.and_eq_true, decide_eq_true_eq]
      exact ⟨⟨⟨hlo, ha⟩, hv⟩, ⟨⟨⟨hab, h2⟩, h3⟩, h4⟩⟩
    · split
      · subst_vars
        simp only [cellsWf, Bool.and_eq_true, decide_eq_true_eq]
        exact ⟨⟨⟨hlo, ha⟩, hv⟩, h4⟩
      · simp only [cellsWf, Bool.and_eq_true, decide_eq_true_eq]
        exact ⟨⟨⟨h1, h2⟩, h3⟩, ih (by omega) h4⟩

theorem cellsWf_eraseCell {lo a : Nat} {l : List Host.Cell} (hw : m.cellsWf lo l = true) :
    m.cellsWf lo (eraseCell a l) = true := by
  induction l generalizing lo with
  | nil => rfl
  | cons p t ih =>
    obtain ⟨b, w⟩ := p
    simp only [cellsWf, Bool.and_eq_true, decide_eq_true_eq] at hw
    simp only [eraseCell]
    split
    · exact ih (cellsWf_mono m (by omega) hw.2)
    · simp only [cellsWf, Bool.and_eq_true, decide_eq_true_eq]
      exact ⟨hw.1, ih hw.2⟩

theorem cellsWf_congr {m' : Memory} (h : m'.font = m.font) (lo : Nat) (l : List Host.Cell) :
    m'.cellsWf lo l = m.cellsWf lo l := by
  induction l generalizing lo with
  | nil => rfl
  | cons p t ih =>
    have hu : m'.unlisted p.1 = m.unlisted p.1 := by simp only [unlisted, h]
    simp only [cellsWf, ih, hu]

/-- A write keeps the canonical form (log 1). -/
theorem wf_write {m : Memory} (hw : m.wf = true) (a : Nat) (v : Byte) : (m.write a v).wf = true := by
  rw [wf, cellsWf_congr m (write_font m a v)]
  simp only [write]
  split
  · exact cellsWf_eraseCell m hw
  · exact cellsWf_insertCell m (Nat.zero_le _) (Nat.mod_lt _ (by decide)) ‹_› hw

theorem wf_writeBytes {m : Memory} (hw : m.wf = true) (a : Nat) (vs : List Byte) :
    (m.writeBytes a vs).wf = true := by
  induction vs generalizing m a with
  | nil => exact hw
  | cons v vs ih => exact ih (wf_write hw a v) (a + 1)

theorem lookupCell_below {lo b : Nat} (d : Byte) (hb : b < lo) {l : List Host.Cell} (hw : m.cellsWf lo l = true) :
    lookupCell b d l = d := by
  induction l generalizing lo with
  | nil => rfl
  | cons p t ih =>
    simp only [cellsWf, Bool.and_eq_true, decide_eq_true_eq] at hw
    have hne : p.1 ≠ b := by omega
    simp only [lookupCell, hne, if_false]
    exact ih (by omega) hw.2

/-- Canonical lists that read alike are equal. -/
theorem cellsWf_ext {lo : Nat} {l l' : List Host.Cell} (hw : m.cellsWf lo l = true) (hw' : m.cellsWf lo l' = true)
    (h : ∀ b, b < Config.memSize → lookupCell b (m.unlisted b) l = lookupCell b (m.unlisted b) l') : l = l' := by
  induction l generalizing lo l' with
  | nil =>
    cases l' with
    | nil => rfl
    | cons p' t' =>
      simp only [cellsWf, Bool.and_eq_true, decide_eq_true_eq] at hw'
      exact absurd (by simpa [lookupCell] using (h p'.1 hw'.1.1.2).symm) hw'.1.2
  | cons p t ih =>
    have hp := hw
    simp only [cellsWf, Bool.and_eq_true, decide_eq_true_eq] at hw
    cases l' with
    | nil => exact absurd (by simpa [lookupCell] using h p.1 hw.1.1.2) hw.1.2
    | cons p' t' =>
      have hp' := hw'
      simp only [cellsWf, Bool.and_eq_true, decide_eq_true_eq] at hw'
      obtain ⟨a, v⟩ := p
      obtain ⟨a', v'⟩ := p'
      have hhead : a = a' := by
        rcases Nat.lt_trichotomy a a' with hlt | heq | hgt
        · have h1 := h a hw.1.1.2
          have hb : m.cellsWf a' ((a', v') :: t') = true := by
            simp only [cellsWf, Bool.and_eq_true, decide_eq_true_eq]
            exact ⟨⟨⟨Nat.le_refl _, hw'.1.1.2⟩, hw'.1.2⟩, hw'.2⟩
          rw [lookupCell_below m _ hlt hb] at h1
          exact absurd (by simpa [lookupCell] using h1) hw.1.2
        · exact heq
        · have h1 := h a' hw'.1.1.2
          have hb : m.cellsWf a ((a, v) :: t) = true := by
            simp only [cellsWf, Bool.and_eq_true, decide_eq_true_eq]
            exact ⟨⟨⟨Nat.le_refl _, hw.1.1.2⟩, hw.1.2⟩, hw.2⟩
          rw [lookupCell_below m _ hgt hb] at h1
          exact absurd (by simpa [lookupCell] using h1.symm) hw'.1.2
      subst hhead
      have hv : v = v' := by simpa [lookupCell] using h a hw.1.1.2
      subst hv
      congr 1
      refine ih hw.2 hw'.2 fun b hb => ?_
      by_cases hab : a = b
      · subst hab
        rw [lookupCell_below m _ (Nat.lt_succ_self a) hw.2, lookupCell_below m _ (Nat.lt_succ_self a) hw'.2]
      · simpa [lookupCell, hab] using h b hb

/-- Equal memories are equal data: two canonical memories of one FONT that read alike are the same (log 1). -/
theorem ext_of_read {m m' : Memory} (hw : m.wf = true) (hw' : m'.wf = true) (hf : m.font = m'.font)
    (h : ∀ a, m.read a = m'.read a) : m = m' := by
  obtain ⟨f, l⟩ := m
  obtain ⟨f', l'⟩ := m'
  change f = f' at hf
  subst hf
  congr 1
  refine cellsWf_ext ⟨f, l⟩ hw ((cellsWf_congr ⟨f, l'⟩ (m' := ⟨f, l⟩) rfl 0 l').trans hw') fun b hb => ?_
  have := h b
  simp only [read, Nat.mod_eq_of_lt hb] at this
  exact this

end Memory

/-! ### The image Load lays out -/

theorem lookupCell_imageCells (a b : Nat) (rom : List Byte) :
    lookupCell b 0#8 (imageCells a rom) = if a ≤ b then rom.getD (b - a) 0#8 else 0#8 := by
  induction rom generalizing a with
  | nil => simp [imageCells, lookupCell]
  | cons v vs ih =>
    by_cases hab : a = b
    · subst hab
      by_cases hv : v = 0#8
      · rw [imageCells, if_pos hv, ih]; simp [hv]
      · simp [imageCells, hv, lookupCell]
    · have hstep : lookupCell b 0#8 (imageCells a (v :: vs)) = lookupCell b 0#8 (imageCells (a + 1) vs) := by
        by_cases hv : v = 0#8 <;> simp [imageCells, hv, lookupCell, hab]
      rw [hstep, ih]
      by_cases hle : a + 1 ≤ b
      · obtain ⟨k, rfl⟩ := Nat.exists_eq_add_of_le hle
        have e : a + 1 + k - a = k + 1 := by omega
        simp [e]; omega
      · rw [if_neg hle, if_neg (by omega)]

theorem cellsWf_imageCells (m : Memory) (a : Nat) (rom : List Byte) (ha : Config.fontLen ≤ a)
    (hlen : a + rom.length ≤ Config.memSize) : m.cellsWf a (imageCells a rom) = true := by
  induction rom generalizing a with
  | nil => rfl
  | cons v vs ih =>
    simp only [List.length_cons] at hlen
    have h := ih (a + 1) (by omega) (by omega)
    by_cases hv : v = 0#8
    · simpa [imageCells, hv] using Memory.cellsWf_mono m (Nat.le_succ a) h
    · simp only [imageCells, hv, if_false, Memory.cellsWf, Bool.and_eq_true, decide_eq_true_eq]
      refine ⟨⟨⟨Nat.le_refl _, by omega⟩, ?_⟩, h⟩
      simp [Memory.unlisted, Nat.not_lt.mpr ha, hv]

/-- What a memory that Load made reads: FONT, the image, and 0 elsewhere (70_reset_and_hazards.md R230). -/
theorem read_loaded (font : Vector Byte Config.fontLen) (rom : List Byte) (a : Nat) (ha : a < Config.memSize) :
    (Memory.mk font (imageCells Config.progBase rom)).read a =
      if h : a < Config.fontLen then font[a]
      else if Config.progBase ≤ a then rom.getD (a - Config.progBase) 0#8 else 0#8 := by
  simp only [Memory.read, Nat.mod_eq_of_lt ha, Memory.unlisted]
  by_cases hf : a < Config.fontLen
  · have below (l : List Byte) (b : Nat) (hb : a < b) : lookupCell a font[a] (imageCells b l) = font[a] := by
      induction l generalizing b with
      | nil => rfl
      | cons v vs ih =>
        have hne : b ≠ a := by omega
        by_cases hv : v = 0#8
        · simpa [imageCells, hv] using ih (b + 1) (by omega)
        · simpa [imageCells, hv, lookupCell, hne] using ih (b + 1) (by omega)
    rw [dif_pos hf, dif_pos hf]
    exact below rom Config.progBase (Nat.lt_of_lt_of_le hf (Nat.le_of_ble_eq_true rfl))
  · rw [dif_neg hf, dif_neg hf]
    exact lookupCell_imageCells _ _ rom

/-- Load leaves a canonical memory. -/
theorem wf_loaded (font : Vector Byte Config.fontLen) (rom : List Byte) (h : romFits rom = true) :
    (Memory.mk font (imageCells Config.progBase rom)).wf = true := by
  have hlen : Config.progBase + rom.length ≤ Config.memSize := by
    have hr : rom.length ≤ Config.romMax := by simpa [romFits] using h
    exact Nat.add_le_add_left hr Config.progBase
  exact Memory.cellsWf_mono _ (Nat.zero_le Config.progBase)
    (cellsWf_imageCells (Memory.mk font (imageCells Config.progBase rom)) Config.progBase rom
      (Nat.le_of_ble_eq_true rfl) hlen)

theorem reset_mem_wf : State.reset.mem.wf = true := rfl

end Sys2Proof.Machine
end

