-- ==== Sys2Proof/Laws/Ops.lean ====
section
/-! SUPPORT. One lemma for each shared operation over registers, keys, timers, the stack and the display, saying once
what it does. -/

namespace Sys2Proof.Machine

/-! ### Operands and registers -/

/-- Fx65's registers: those below `k` come from memory, the others stay (42_index_memory.md R146). -/
theorem getElem_loadFrom (m : Memory) (base : Nat) (regs : Vector Byte 16) (k r : Nat) (hr : r < 16) :
    (loadFrom m base regs k)[r] = if r < k then m.read (base + r) else regs[r] := by
  induction k with
  | zero => rfl
  | succ k ih =>
    simp only [loadFrom, Vector.getElem_setIfInBounds, ih]
    by_cases h : k = r
    · subst h; simp
    · simp only [h, if_false]
      by_cases h2 : r < k
      · rw [if_pos h2, if_pos (by omega)]
      · rw [if_neg h2, if_neg (by omega)]

@[simp] theorem length_regsUpTo (s : State) (x : Nib) : (s.regsUpTo x).length = x.val + 1 := by
  simp [State.regsUpTo]

/-- The bytes Fx55 stores (42_index_memory.md R145). -/
theorem getElem_regsUpTo (s : State) (x : Nib) (k : Nat) (h : k < (s.regsUpTo x).length) :
    (s.regsUpTo x)[k] = s.getV ⟨k, by simp at h; omega⟩ := by
  simp [State.regsUpTo, State.getV]

@[simp] theorem length_bcdDigits (v : Byte) : (bcdDigits v).length = 3 := rfl

theorem toNat_zextAddr (nnn : Addr12) : (zextAddr nnn).toNat = nnn.toNat := by
  simp [zextAddr]; omega

theorem toNat_zextByte (v : Byte) : (zextByte v).toNat = v.toNat := by
  simp [zextByte]; omega

theorem toNat_glyphAddr (v : Byte) : (glyphAddr v).toNat = v.toNat * 5 := by
  simp only [glyphAddr, BitVec.toNat_ofNat]
  have := v.isLt
  omega

/-! ### Keys and timers -/

/-- The least pressed key (44_keypad_timers.md R173). -/
theorem firstKey_eq_some {keys : BitVec 16} {k : Nat} :
    firstKey keys = some k ↔ k < 16 ∧ keys.getLsbD k = true ∧ ∀ j, j < k → keys.getLsbD j = false := by
  simp only [firstKey, List.find?_range_eq_some, List.mem_range, Bool.not_eq_eq_eq_not]
  constructor
  · rintro ⟨a, b, c⟩; exact ⟨b, a, by simpa using c⟩
  · rintro ⟨a, b, c⟩; exact ⟨b, a, by simpa using c⟩

theorem firstKey_eq_none {keys : BitVec 16} : firstKey keys = none ↔ keys = 0#16 := by
  simp only [firstKey, List.find?_range_eq_none, Bool.not_eq_true']
  constructor
  · intro h
    apply BitVec.eq_of_getLsbD_eq
    intro i hi
    simpa using h i hi
  · rintro rfl i _; simp

theorem getLsbD_clearKey (keys : BitVec 16) {k j : Nat} (hj : j < 16) :
    (clearKey keys k).getLsbD j = (keys.getLsbD j && decide (j ≠ k)) := by
  simp only [clearKey, BitVec.getLsbD_and, BitVec.getLsbD_not, BitVec.getLsbD_twoPow, hj]
  by_cases h : j = k
  · subst h; simp [hj]
  · have h' : ¬k = j := fun e => h e.symm
    simp [h, h']

/-- A timer counts down by one at a tick and saturates at 0 (60_exceptions.md R212). -/
theorem toNat_decayWhen (due : Bool) (v : Byte) :
    (decayWhen due v).toNat = if due then v.toNat - 1 else v.toNat := by
  simp only [decayWhen]
  by_cases h : v = 0#8
  · simp [h]
  · have hpos : 0 < v.toNat := by
      rcases Nat.eq_zero_or_pos v.toNat with h0 | h0
      · exact absurd (BitVec.eq_of_toNat_eq (by simpa using h0)) h
      · exact h0
    cases due
    · simp [h]
    · simp only [h, if_false, if_true, BitVec.toNat_sub, BitVec.toNat_ofNat]
      have := v.isLt
      omega

@[simp] theorem decayWhen_false (v : Byte) : decayWhen false v = v := by
  simp only [decayWhen]; split <;> simp_all

/-! ### Display -/

@[simp] theorem getCell_clearDisplay (c : Nat) : getCell clearDisplay c = false := by
  simp [getCell, clearDisplay]

/-- Toggling a cell inverts it and leaves every other cell alone (43_display.md R162). -/
theorem getCell_toggleCell (d : Display) {c e : Nat} (hc : c < 2048) (he : e < 2048) :
    getCell (toggleCell d c) e = (getCell d e ^^ decide (e = c)) := by
  simp only [getCell, toggleCell, Vector.getElem_set]
  by_cases hrow : c / 64 % 32 = e / 64 % 32
  · simp only [hrow, if_true, BitVec.getLsbD_xor, BitVec.getLsbD_twoPow]
    congr 1
    have h1 : c % 64 < 64 := Nat.mod_lt _ (by decide)
    by_cases hcol : c % 64 = e % 64
    · have : e = c := by omega
      simp [this, h1]
    · have : e ≠ c := by rintro rfl; exact hcol rfl
      simp [this, hcol]
  · have : e ≠ c := by rintro rfl; exact hrow rfl
    simp [hrow, this]

/-- Two displays with the same 2048 cells are equal. -/
theorem display_ext {d e : Display} (h : ∀ c, c < 2048 → getCell d c = getCell e c) : d = e := by
  apply Vector.ext
  intro r hr
  apply BitVec.eq_of_getLsbD_eq
  intro i hi
  have := h (64 * r + i) (by omega)
  have e1 : (64 * r + i) / 64 % 32 = r := by omega
  have e2 : (64 * r + i) % 64 = i := by omega
  simpa only [getCell, e1, e2] using this

theorem spriteCell_lt (vx vy row col : Nat) : spriteCell vx vy row col < 2048 := by
  simp only [spriteCell, cell]; omega

/-- Within one draw no cell is addressed twice (43_display.md R162). -/
theorem spriteCell_inj {vx vy row col row' col' : Nat} (hr : row < 32) (hr' : row' < 32) (hc : col < 8) (hc' : col' < 8)
    (h : spriteCell vx vy row col = spriteCell vx vy row' col') : row = row' ∧ col = col' := by
  simp only [spriteCell, cell] at h
  omega

/-- Toggling a list of distinct cells while noting whether one was lit. -/
def toggleAll (acc : Display × Bool) (cs : List Nat) : Display × Bool :=
  cs.foldl (fun a c => (toggleCell a.1 c, a.2 || getCell a.1 c)) acc

theorem toggleAll_spec (cs : List Nat) (hn : cs.Nodup) (hlt : ∀ c ∈ cs, c < 2048) (d : Display) (f : Bool) :
    (∀ e, e < 2048 → getCell (toggleAll (d, f) cs).1 e = (getCell d e ^^ decide (e ∈ cs))) ∧
      (toggleAll (d, f) cs).2 = (f || cs.any (getCell d)) := by
  induction cs generalizing d f with
  | nil => simp [toggleAll]
  | cons c cs ih =>
    rw [List.nodup_cons] at hn
    have hc : c < 2048 := hlt c (by simp)
    obtain ⟨h1, h2⟩ := ih hn.2 (fun e he => hlt e (by simp [he])) (toggleCell d c) (f || getCell d c)
    have hrw : toggleAll (d, f) (c :: cs) = toggleAll (toggleCell d c, f || getCell d c) cs := rfl
    rw [hrw]
    constructor
    · intro e he
      rw [h1 e he, getCell_toggleCell d hc he]
      by_cases hec : e = c
      · subst hec; simp [hn.1]
      · simp [hec]
    · rw [h2, List.any_cons, Bool.or_assoc]
      congr 2
      rw [Bool.eq_iff_iff, List.any_eq_true, List.any_eq_true]
      refine exists_congr fun e => and_congr_right fun he => ?_
      have hne : e ≠ c := by rintro rfl; exact hn.1 he
      rw [getCell_toggleCell d hc (hlt e (by simp [he]))]
      simp [hne]

/-- The cells of the 1 bits of a sprite row, in the order of its columns. -/
def rowCells (m : Memory) (base vx vy row : Nat) : List Nat :=
  ((List.range 8).filter (spriteBit (m.read (base + row)))).map (spriteCell vx vy row)

/-- The cells of the 1 bits of a sprite, in the order of the two loops. -/
def spriteCells (m : Memory) (base vx vy n : Nat) : List Nat := (List.range n).flatMap (rowCells m base vx vy)

theorem drawRow_eq (m : Memory) (base vx vy : Nat) (acc : Display × Bool) (row : Nat) :
    drawRow m base vx vy acc row = toggleAll acc (rowCells m base vx vy row) := by
  simp only [drawRow, toggleAll, rowCells, List.foldl_map, List.foldl_filter]
  rfl

theorem drawSprite_eq (m : Memory) (base vx vy n : Nat) (d : Display) :
    drawSprite m base vx vy n d = toggleAll (d, false) (spriteCells m base vx vy n) := by
  simp only [drawSprite, spriteCells, toggleAll, List.foldl_flatMap]
  congr 1
  funext acc row
  exact drawRow_eq m base vx vy acc row

theorem mem_spriteCells {m : Memory} {base vx vy n c : Nat} :
    c ∈ spriteCells m base vx vy n ↔ SpriteCovers m base vx vy n c := by
  simp only [spriteCells, rowCells, SpriteCovers, List.mem_flatMap, List.mem_map, List.mem_filter, List.mem_range]
  constructor
  · rintro ⟨row, hr, col, ⟨hc, hb⟩, h⟩; exact ⟨row, hr, col, hc, hb, h⟩
  · rintro ⟨row, hr, col, hc, hb, h⟩; exact ⟨row, hr, col, ⟨hc, hb⟩, h⟩

theorem spriteCells_lt {m : Memory} {base vx vy n c : Nat} (h : c ∈ spriteCells m base vx vy n) : c < 2048 := by
  obtain ⟨row, _, col, _, _, rfl⟩ := mem_spriteCells.mp h
  exact spriteCell_lt _ _ _ _

theorem nodup_spriteCells (m : Memory) (base vx vy : Nat) {n : Nat} (hn : n ≤ 32) :
    (spriteCells m base vx vy n).Nodup := by
  rw [spriteCells, List.nodup_flatMap]
  constructor
  · intro row hrow
    have hr : row < 32 := by simp at hrow; omega
    refine List.Nodup.map_on ?_ ((List.nodup_range).filter _)
    intro a ha b hb hab
    simp only [List.mem_filter, List.mem_range] at ha hb
    exact (spriteCell_inj hr hr ha.1 hb.1 hab).2
  · refine (List.nodup_range (n := n)).imp_of_mem ?_
    intro row row' hrow hrow' hne
    simp only [List.mem_range] at hrow hrow'
    intro c hc hc'
    simp only [rowCells, List.mem_map, List.mem_filter, List.mem_range] at hc hc'
    obtain ⟨col, ⟨h1, _⟩, rfl⟩ := hc
    obtain ⟨col', ⟨h2, _⟩, h⟩ := hc'
    exact hne (spriteCell_inj (by omega) (by omega) h1 h2 h.symm).1

/-- Everything a blit does, in closed form: the covered cells are toggled, the others stay, and the flag says whether a
covered cell was lit (43_display.md R162). -/
theorem drawSprite_spec (m : Memory) (base vx vy : Nat) {n : Nat} (hn : n ≤ 32) (d : Display) :
    (∀ e, e < 2048 → (SpriteCovers m base vx vy n e → getCell (drawSprite m base vx vy n d).1 e = !getCell d e) ∧
      (¬SpriteCovers m base vx vy n e → getCell (drawSprite m base vx vy n d).1 e = getCell d e)) ∧
    ((drawSprite m base vx vy n d).2 = true ↔ ∃ e, SpriteCovers m base vx vy n e ∧ getCell d e = true) := by
  obtain ⟨h1, h2⟩ := toggleAll_spec (spriteCells m base vx vy n) (nodup_spriteCells m base vx vy hn)
    (fun c hc => spriteCells_lt hc) d false
  rw [← drawSprite_eq] at h1 h2
  refine ⟨fun e he => ⟨fun hcov => ?_, fun hcov => ?_⟩, ?_⟩
  · rw [h1 e he]; simp [mem_spriteCells.mpr hcov]
  · rw [h1 e he]; simp [mem_spriteCells, hcov]
  · rw [h2, Bool.false_or, List.any_eq_true]
    exact exists_congr fun e => and_congr_left fun _ => mem_spriteCells

end Sys2Proof.Machine
end

