-- ==== Sys2Proof/Laws/PerInstr.lean ====
section
/-! SUPPORT. One lemma per constructor of `Instr`: its encoding selects its own row of the opcode map
(30_encoding.md R65). -/

namespace Sys2Proof.Laws.EncodesInRow

/-- The word of the instruction selects the instruction's row, and the row stands in the opcode map
(30_encoding.md R65). -/
def Statement (i : Instr) : Prop := i.row.selects (encode i) = true ∧ i.row ∈ opcodeRows

/-- Rows of format NNN. -/
theorem of_formatNNN {f : Nat} (hf : f < 16) (nnn : Addr12) :
    (OpcodeRow.mk 0xF000 (BitVec.ofNat 16 (4096 * f))).selects (formatNNN f nnn) = true :=
  (selects_F000 hf _).mpr (family_formatNNN hf nnn)

/-- Rows of format XKK. -/
theorem of_formatXKK {f : Nat} (hf : f < 16) (x : Nib) (kk : Byte) :
    (OpcodeRow.mk 0xF000 (BitVec.ofNat 16 (4096 * f))).selects (formatXKK f x kk) = true :=
  (selects_F000 hf _).mpr (family_formatXKK hf x kk)

/-- The row of format XYN. -/
theorem of_formatXYN {f : Nat} (hf : f < 16) (x y n : Nib) :
    (OpcodeRow.mk 0xF000 (BitVec.ofNat 16 (4096 * f))).selects (formatXYN f x y n) = true :=
  (selects_F000 hf _).mpr (family_formatXYN hf x y n)

/-- Rows of format XY. -/
theorem of_formatXY {f : Nat} (hf : f < 16) (x y n : Nib) :
    (OpcodeRow.mk 0xF00F (BitVec.ofNat 16 (4096 * f + n.val))).selects (formatXYN f x y n) = true :=
  (selects_F00F hf n.isLt _).mpr ⟨family_formatXYN hf x y n, lowNibble_formatXYN hf x y n⟩

/-- Rows of format X. -/
theorem of_formatX {f : Nat} (hf : f < 16) (x : Nib) (kk : Byte) :
    (OpcodeRow.mk 0xF0FF (BitVec.ofNat 16 (4096 * f + kk.toNat))).selects (formatXKK f x kk) = true :=
  (selects_F0FF hf kk.isLt _).mpr ⟨family_formatXKK hf x kk, lowByte_formatXKK hf x kk⟩

theorem cls : Statement .cls := ⟨rfl, by decide⟩

theorem ret : Statement .ret := ⟨rfl, by decide⟩

theorem jp (nnn : Addr12) : Statement (.jp nnn) := ⟨of_formatNNN (f := 1) (by decide) nnn, by simp [Instr.row, opcodeRows]⟩

theorem call (nnn : Addr12) : Statement (.call nnn) := ⟨of_formatNNN (f := 2) (by decide) nnn, by simp [Instr.row, opcodeRows]⟩

theorem seImm (x : Nib) (kk : Byte) : Statement (.seImm x kk) := ⟨of_formatXKK (f := 3) (by decide) x kk, by simp [Instr.row, opcodeRows]⟩

theorem sneImm (x : Nib) (kk : Byte) : Statement (.sneImm x kk) := ⟨of_formatXKK (f := 4) (by decide) x kk, by simp [Instr.row, opcodeRows]⟩

theorem seReg (x : Nib) (y : Nib) : Statement (.seReg x y) := ⟨of_formatXY (f := 5) (by decide) x y 0, by simp [Instr.row, opcodeRows]⟩

theorem ldImm (x : Nib) (kk : Byte) : Statement (.ldImm x kk) := ⟨of_formatXKK (f := 6) (by decide) x kk, by simp [Instr.row, opcodeRows]⟩

theorem addImm (x : Nib) (kk : Byte) : Statement (.addImm x kk) := ⟨of_formatXKK (f := 7) (by decide) x kk, by simp [Instr.row, opcodeRows]⟩

theorem ldReg (x : Nib) (y : Nib) : Statement (.ldReg x y) := ⟨of_formatXY (f := 8) (by decide) x y 0, by simp [Instr.row, opcodeRows]⟩

theorem orReg (x : Nib) (y : Nib) : Statement (.orReg x y) := ⟨of_formatXY (f := 8) (by decide) x y 1, by simp [Instr.row, opcodeRows]⟩

theorem andReg (x : Nib) (y : Nib) : Statement (.andReg x y) := ⟨of_formatXY (f := 8) (by decide) x y 2, by simp [Instr.row, opcodeRows]⟩

theorem xorReg (x : Nib) (y : Nib) : Statement (.xorReg x y) := ⟨of_formatXY (f := 8) (by decide) x y 3, by simp [Instr.row, opcodeRows]⟩

theorem addReg (x : Nib) (y : Nib) : Statement (.addReg x y) := ⟨of_formatXY (f := 8) (by decide) x y 4, by simp [Instr.row, opcodeRows]⟩

theorem subReg (x : Nib) (y : Nib) : Statement (.subReg x y) := ⟨of_formatXY (f := 8) (by decide) x y 5, by simp [Instr.row, opcodeRows]⟩

theorem shrReg (x : Nib) (y : Nib) : Statement (.shrReg x y) := ⟨of_formatXY (f := 8) (by decide) x y 6, by simp [Instr.row, opcodeRows]⟩

theorem subnReg (x : Nib) (y : Nib) : Statement (.subnReg x y) := ⟨of_formatXY (f := 8) (by decide) x y 7, by simp [Instr.row, opcodeRows]⟩

theorem shlReg (x : Nib) (y : Nib) : Statement (.shlReg x y) := ⟨of_formatXY (f := 8) (by decide) x y 14, by simp [Instr.row, opcodeRows]⟩

theorem sneReg (x : Nib) (y : Nib) : Statement (.sneReg x y) := ⟨of_formatXY (f := 9) (by decide) x y 0, by simp [Instr.row, opcodeRows]⟩

theorem ldI (nnn : Addr12) : Statement (.ldI nnn) := ⟨of_formatNNN (f := 10) (by decide) nnn, by simp [Instr.row, opcodeRows]⟩

theorem jpV0 (nnn : Addr12) : Statement (.jpV0 nnn) := ⟨of_formatNNN (f := 11) (by decide) nnn, by simp [Instr.row, opcodeRows]⟩

theorem rnd (x : Nib) (kk : Byte) : Statement (.rnd x kk) := ⟨of_formatXKK (f := 12) (by decide) x kk, by simp [Instr.row, opcodeRows]⟩

theorem drw (x : Nib) (y : Nib) (n : Nib) : Statement (.drw x y n) := ⟨of_formatXYN (f := 13) (by decide) x y n, by simp [Instr.row, opcodeRows]⟩

theorem skp (x : Nib) : Statement (.skp x) := ⟨of_formatX (f := 14) (by decide) x 158, by simp [Instr.row, opcodeRows]⟩

theorem sknp (x : Nib) : Statement (.sknp x) := ⟨of_formatX (f := 14) (by decide) x 161, by simp [Instr.row, opcodeRows]⟩

theorem ldVxDT (x : Nib) : Statement (.ldVxDT x) := ⟨of_formatX (f := 15) (by decide) x 7, by simp [Instr.row, opcodeRows]⟩

theorem ldVxK (x : Nib) : Statement (.ldVxK x) := ⟨of_formatX (f := 15) (by decide) x 10, by simp [Instr.row, opcodeRows]⟩

theorem ldDTVx (x : Nib) : Statement (.ldDTVx x) := ⟨of_formatX (f := 15) (by decide) x 21, by simp [Instr.row, opcodeRows]⟩

theorem ldSTVx (x : Nib) : Statement (.ldSTVx x) := ⟨of_formatX (f := 15) (by decide) x 24, by simp [Instr.row, opcodeRows]⟩

theorem addI (x : Nib) : Statement (.addI x) := ⟨of_formatX (f := 15) (by decide) x 30, by simp [Instr.row, opcodeRows]⟩

theorem ldF (x : Nib) : Statement (.ldF x) := ⟨of_formatX (f := 15) (by decide) x 41, by simp [Instr.row, opcodeRows]⟩

theorem ldB (x : Nib) : Statement (.ldB x) := ⟨of_formatX (f := 15) (by decide) x 51, by simp [Instr.row, opcodeRows]⟩

theorem storeRegs (x : Nib) : Statement (.storeRegs x) := ⟨of_formatX (f := 15) (by decide) x 85, by simp [Instr.row, opcodeRows]⟩

theorem loadRegs (x : Nib) : Statement (.loadRegs x) := ⟨of_formatX (f := 15) (by decide) x 101, by simp [Instr.row, opcodeRows]⟩

end Sys2Proof.Laws.EncodesInRow
end

