-- ==== Sys2Proof/Laws/Step.lean ====
section
/-! SUPPORT. One lemma for each way the instruction step, the cycle and the host's events go, so that no proof unfolds
`step`. -/

namespace Sys2Proof.Machine

/-- The word at `pc` is an instruction: it is executed with `ir` written (60_exceptions.md R219). -/
theorem instrStep_of_ok {s : State} {i : Instr} (h : decodeWord s.fetchWord = .ok i) :
    instrStep s = exec i (s.setIr s.fetchWord) := by simp [instrStep, h]

/-- The word at `pc` is unknown: the step raises (60_exceptions.md R201). -/
theorem instrStep_of_error {s : State} {e : DecodeError} (h : decodeWord s.fetchWord = .error e) :
    instrStep s = .next ((s.setIr s.fetchWord).raise (.unknownOpcode s.fetchWord)) := by simp [instrStep, h]

/-- A halted machine's cycle changes nothing (60_exceptions.md R208). -/
theorem cycle_of_halted {s : State} (inp : CycleInputs) (h : s.mode = .halted) : cycle inp s = .next s := by
  simp [cycle, h]

/-- Any other machine runs its instruction step and the rest of the cycle (60_exceptions.md R211). -/
theorem cycle_of_running {s : State} (inp : CycleInputs) (h : s.mode ≠ .halted) :
    cycle inp s = mapNext (State.endCycle inp) (instrStep (s.setPins inp)) := by simp [cycle, h]

/-- The rest of a cycle that raised an error does not run (60_exceptions.md R207). -/
theorem endCycle_of_halted {s : State} (inp : CycleInputs) (h : s.mode = .halted) : s.endCycle inp = s := by
  simp [State.endCycle, h]

/-- The rest of a cycle without an error (60_exceptions.md R211). -/
theorem endCycle_of_running {s : State} (inp : CycleInputs) (h : s.mode ≠ .halted) :
    s.endCycle inp = (s.keySample inp.keysIn).timerPhase inp.tickDue := by simp [State.endCycle, h]

@[simp] theorem endCycle_mem (inp : CycleInputs) (s : State) : (s.endCycle inp).mem = s.mem := by
  unfold State.endCycle; split <;> rfl

@[simp] theorem endCycle_pc (inp : CycleInputs) (s : State) : (s.endCycle inp).pc = s.pc := by
  unfold State.endCycle; split <;> rfl

@[simp] theorem endCycle_mode (inp : CycleInputs) (s : State) : (s.endCycle inp).mode = s.mode := by
  unfold State.endCycle; split <;> rfl

@[simp] theorem endCycle_err (inp : CycleInputs) (s : State) : (s.endCycle inp).err = s.err := by
  unfold State.endCycle; split <;> rfl

@[simp] theorem endCycle_fetchWord (inp : CycleInputs) (s : State) : (s.endCycle inp).fetchWord = s.fetchWord := by
  simp [State.fetchWord]

/-- A step whose event is a cycle. -/
theorem step_of_cycle {s : State} {inp : CycleInputs} (h : s.nextEvent = .cycle inp) :
    step s = cycle inp s.takeEvent := by simp [step, runEvent, h]

/-- A step whose event is RenderAck. -/
theorem step_of_renderAck {s : State} (h : s.nextEvent = .renderAck) : step s = .next s.takeEvent.renderAck := by
  simp [step, runEvent, h]

/-- A step whose event is a Load that fits. -/
theorem step_of_load {s t : State} {rom : List Byte} (h : s.nextEvent = .load rom)
    (ht : loadRom rom s.takeEvent = .ok t) : step s = .next t := by simp [step, runEvent, h, ht]

/-- A step whose event is a Load that does not fit. -/
theorem step_of_load_error {s : State} {rom : List Byte} {e : LoadError} (h : s.nextEvent = .load rom)
    (ht : loadRom rom s.takeEvent = .error e) : step s = .next s.takeEvent := by simp [step, runEvent, h, ht]

/-- A step whose event is Shutdown. -/
theorem step_of_shutdown {s : State} (h : s.nextEvent = .shutdown) : step s = .fault .shutDown := by
  simp [step, runEvent, h]

end Sys2Proof.Machine
end

