-- ==== Sys2Proof/Tests/Slice0.lean ====
section
/-! SUPPORT. The model's own tests: ill-formed terms that the checks refuse, words written out from the opcode map, one
or two steps of each instruction from the spec's vectors (95_test_vectors.md), whole cycles, and for every statement
with hypotheses a concrete input that meets them all. -/

namespace Sys2Proof.Tests

open Sys2Proof Sys2Proof.Machine
open Host (Outcome)

/-! ### Well-formedness: ill-formed words, images and memories are refused -/

/-- 30_encoding.md R66, vectors T151, T152, T153: family 0. -/
theorem test_illegal_family0 : wordLegal 0x0000 = false ∧ wordLegal 0x0123 = false ∧ wordLegal 0x00E1 = false := by
  decide

/-- Vectors T154, T157: families 5 and 9 have only low nibble 0. -/
theorem test_illegal_family5_family9 : wordLegal 0x5121 = false ∧ wordLegal 0x9121 = false := by decide

/-- Vectors T155, T156: family 8. -/
theorem test_illegal_family8 : wordLegal 0x8128 = false ∧ wordLegal 0x812D = false ∧ wordLegal 0x812F = false := by
  decide

/-- Vectors T158, T159: family E. -/
theorem test_illegal_familyE : wordLegal 0xE19F = false ∧ wordLegal 0xE100 = false := by decide

/-- Vectors T150, T160, T161, T162: family F. -/
theorem test_illegal_familyF :
    wordLegal 0xFFFF = false ∧ wordLegal 0xF100 = false ∧ wordLegal 0xF175 = false ∧ wordLegal 0xF166 = false := by
  decide

/-- Vector E5: an image of 3585 bytes is refused; E4: one of 3584 is not. -/
theorem test_rom_limit :
    romFits (List.replicate 3585 0xAA) = false ∧ romFits (List.replicate 3584 0xAA) = true := by
  simp only [romFits, List.length_replicate]; decide

/-- The canonical form (log 1) refuses a list out of order. -/
theorem test_memory_unsorted : Memory.wf ⟨Config.defaultFont, [(0x300, 1), (0x200, 1)]⟩ = false := by decide

/-- It refuses an address listed twice. -/
theorem test_memory_repeat : Memory.wf ⟨Config.defaultFont, [(0x300, 1), (0x300, 2)]⟩ = false := by decide

/-- It refuses an address outside memory (20_memory.md R40). -/
theorem test_memory_outside : Memory.wf ⟨Config.defaultFont, [(0x1000, 1)]⟩ = false := by decide

/-- It refuses a cell equal to what an unlisted address reads as, a zero and a font byte. -/
theorem test_memory_redundant :
    Memory.wf ⟨Config.defaultFont, [(0x300, 0)]⟩ = false ∧ Memory.wf ⟨Config.defaultFont, [(0, 0xF0)]⟩ = false := by
  decide

/-- Fewer than two bytes are no instruction (30_encoding.md R60). -/
theorem test_decode_truncated : decode [] = .error .truncated ∧ decode [0x12] = .error .truncated := by decide

/-! ### Decoding: each constructor from a word written out by 30_encoding.md R65 -/

theorem test_decode_cls : decodeWord 0x00E0 = .ok .cls := by decide
theorem test_decode_ret : decodeWord 0x00EE = .ok .ret := by decide
theorem test_decode_jp : decodeWord 0x1FA3 = .ok (.jp 0xFA3) := by decide
theorem test_decode_call : decodeWord 0x2345 = .ok (.call 0x345) := by decide
theorem test_decode_seImm : decodeWord 0x3A08 = .ok (.seImm 0xA 0x08) := by decide
theorem test_decode_sneImm : decodeWord 0x4A18 = .ok (.sneImm 0xA 0x18) := by decide
theorem test_decode_seReg : decodeWord 0x5120 = .ok (.seReg 1 2) := by decide
theorem test_decode_ldImm : decodeWord 0x6AC5 = .ok (.ldImm 0xA 0xC5) := by decide
theorem test_decode_addImm : decodeWord 0x7A03 = .ok (.addImm 0xA 0x03) := by decide
theorem test_decode_ldReg : decodeWord 0x81F0 = .ok (.ldReg 1 0xF) := by decide
theorem test_decode_orReg : decodeWord 0x8121 = .ok (.orReg 1 2) := by decide
theorem test_decode_andReg : decodeWord 0x8342 = .ok (.andReg 3 4) := by decide
theorem test_decode_xorReg : decodeWord 0x8563 = .ok (.xorReg 5 6) := by decide
theorem test_decode_addReg : decodeWord 0x8784 = .ok (.addReg 7 8) := by decide
theorem test_decode_subReg : decodeWord 0x89A5 = .ok (.subReg 9 0xA) := by decide
theorem test_decode_shrReg : decodeWord 0x8BC6 = .ok (.shrReg 0xB 0xC) := by decide
theorem test_decode_subnReg : decodeWord 0x8DE7 = .ok (.subnReg 0xD 0xE) := by decide
theorem test_decode_shlReg : decodeWord 0x8F2E = .ok (.shlReg 0xF 2) := by decide
theorem test_decode_sneReg : decodeWord 0x9120 = .ok (.sneReg 1 2) := by decide
theorem test_decode_ldI : decodeWord 0xA2F0 = .ok (.ldI 0x2F0) := by decide
theorem test_decode_jpV0 : decodeWord 0xB301 = .ok (.jpV0 0x301) := by decide
theorem test_decode_rnd : decodeWord 0xC10F = .ok (.rnd 1 0x0F) := by decide
theorem test_decode_drw : decodeWord 0xD125 = .ok (.drw 1 2 5) := by decide
theorem test_decode_skp : decodeWord 0xE19E = .ok (.skp 1) := by decide
theorem test_decode_sknp : decodeWord 0xE2A1 = .ok (.sknp 2) := by decide
theorem test_decode_ldVxDT : decodeWord 0xF307 = .ok (.ldVxDT 3) := by decide
theorem test_decode_ldVxK : decodeWord 0xF50A = .ok (.ldVxK 5) := by decide
theorem test_decode_ldDTVx : decodeWord 0xF615 = .ok (.ldDTVx 6) := by decide
theorem test_decode_ldSTVx : decodeWord 0xF718 = .ok (.ldSTVx 7) := by decide
theorem test_decode_addI : decodeWord 0xFF1E = .ok (.addI 0xF) := by decide
theorem test_decode_ldF : decodeWord 0xF829 = .ok (.ldF 8) := by decide
theorem test_decode_ldB : decodeWord 0xF933 = .ok (.ldB 9) := by decide
theorem test_decode_storeRegs : decodeWord 0xF255 = .ok (.storeRegs 2) := by decide
theorem test_decode_loadRegs : decodeWord 0xFE65 = .ok (.loadRegs 0xE) := by decide

/-- Big-endian: the byte at the lower address is the high byte (20_memory.md R44). -/
theorem test_decode_bytes : decode [0xA2, 0xF0, 0x12] = .ok (.ldI 0x2F0, [0x12]) := by decide

/-- The table numbering: one 16-bit word, bit 0 its least significant bit. -/
theorem test_decode_table_word : decodeTableWord 16 0x8125 = some (.subReg 1 2) ∧ decodeTableWord 16 0x8128 = none := by
  decide

/-! ### Small states -/

/-- The reset state with some registers set. -/
def withV (rs : List (Nib × Byte)) : State := rs.foldl (fun s p => s.setV p.1 p.2) State.reset

/-- The reset state with bytes written from an address. -/
def withBytes (a : Nat) (bs : List Byte) : State := State.reset.setMem (State.reset.mem.writeBytes a bs)

/-- The reset state with a word at 0x200 and one cycle to come. -/
def atStart (w : Word) (inp : CycleInputs) : State :=
  { withBytes 0x200 [highByte w, lowByte w] with events := [.cycle inp] }

/-- The reset state with those cells lit. -/
def withCells (cs : List Nat) : State := { State.reset with disp := cs.foldl toggleCell State.reset.disp }

/-- The outcome is a next state that meets a check. -/
def nextIs (o : Outcome State Fault Refusal) (f : State → Bool) : Bool :=
  match o with
  | .next t => f t
  | _ => false

/-- No key, no tick. -/
def quiet : CycleInputs := ⟨0, 0, false⟩

/-! ### One step of each instruction (95_test_vectors.md, part L2) -/

/-- T110. -/
theorem test_cls_T110 : nextIs (exec .cls { withCells [0, 5, 2047] with V := (withV [(15, 1)]).V })
    (fun t => !t.pixel 0 0 && !t.pixel 5 0 && !t.pixel 63 31 && t.redraw && t.getV 15 == 1) := by decide

/-- T1. -/
theorem test_ret_T1 : nextIs
    (exec .ret { State.reset with pc := 0x300, sp := 1, stack := State.reset.stack.set 0 0x204 })
    (fun t => t.pc == 0x206 && t.sp == 0 && t.stack[0] == 0x204) := by decide

/-- T3: the 16th entry, and the sum wraps. -/
theorem test_ret_T3 : nextIs (exec .ret { State.reset with sp := 16, stack := State.reset.stack.set 15 0xFFFF })
    (fun t => t.pc == 0x0001 && t.sp == 15) := by decide

/-- T5: an odd target. -/
theorem test_jp_T5 : nextIs (exec (.jp 0xFFF) State.reset) (fun t => t.pc == 0xFFF) := by decide

/-- T7: the 16th level succeeds. -/
theorem test_call_T7 : nextIs (exec (.call 0x300) { State.reset with pc := 0x204, sp := 15 })
    (fun t => t.pc == 0x300 && t.sp == 16 && t.stack[15] == 0x204) := by decide

/-- T8: the 17th does not. -/
theorem test_call_T8 : nextIs (exec (.call 0x300) { State.reset with pc := 0x204, sp := 16 })
    (fun t => t.pc == 0x204 && t.sp == 16 && t.mode == .halted && t.err == some .stackOverflow) := by decide

/-- T13. -/
theorem test_seImm_T13 : nextIs (exec (.seImm 0xA 0x08) (withV [(0xA, 9)])) (fun t => t.pc == 0x202) := by decide

/-- T21: a skip across the top of memory. -/
theorem test_seImm_T21 : nextIs (exec (.seImm 0 0) { State.reset with pc := 0xFFE }) (fun t => t.pc == 0x1002) := by
  decide

/-- T14. -/
theorem test_sneImm_T14 : nextIs (exec (.sneImm 0xA 0x08) (withV [(0xA, 8)])) (fun t => t.pc == 0x202) := by decide

/-- T15. -/
theorem test_sneImm_T15 : nextIs (exec (.sneImm 0xA 0x08) (withV [(0xA, 9)])) (fun t => t.pc == 0x204) := by decide

/-- T16. -/
theorem test_seReg_T16 : nextIs (exec (.seReg 1 2) (withV [(1, 7), (2, 7)])) (fun t => t.pc == 0x204) := by decide

/-- T17. -/
theorem test_seReg_T17 : nextIs (exec (.seReg 1 2) (withV [(1, 7), (2, 8)])) (fun t => t.pc == 0x202) := by decide

/-- T31. -/
theorem test_ldImm_T31 : nextIs (exec (.ldImm 0xF 0xFF) State.reset) (fun t => t.getV 15 == 0xFF && t.pc == 0x202) := by
  decide

/-- T33: the sum wraps and no flag is set. -/
theorem test_addImm_T33 : nextIs (exec (.addImm 0 1) (withV [(0, 0xFF)])) (fun t => t.getV 0 == 0 && t.getV 15 == 0) := by
  decide

/-- T34: VF is an ordinary destination. -/
theorem test_addImm_T34 : nextIs (exec (.addImm 0xF 2) (withV [(15, 0xFF)])) (fun t => t.getV 15 == 1) := by decide

/-- T35. -/
theorem test_ldReg_T35 : nextIs (exec (.ldReg 1 2) (withV [(2, 0x3C)])) (fun t => t.getV 1 == 0x3C) := by decide

/-- T37: VF stays. -/
theorem test_orReg_T37 : nextIs (exec (.orReg 1 2) (withV [(1, 0xF0), (2, 0x0F), (15, 1)]))
    (fun t => t.getV 1 == 0xFF && t.getV 15 == 1) := by decide

/-- T38. -/
theorem test_andReg_T38 : nextIs (exec (.andReg 1 2) (withV [(1, 0xF0), (2, 0x3C), (15, 1)]))
    (fun t => t.getV 1 == 0x30 && t.getV 15 == 1) := by decide

/-- T39. -/
theorem test_xorReg_T39 : nextIs (exec (.xorReg 1 2) (withV [(1, 0xF0), (2, 0x3C), (15, 1)]))
    (fun t => t.getV 1 == 0xCC && t.getV 15 == 1) := by decide

/-- T43: no carry clears VF. -/
theorem test_addReg_T43 : nextIs (exec (.addReg 1 2) (withV [(1, 0x80), (2, 0x7F), (15, 1)]))
    (fun t => t.getV 1 == 0xFF && t.getV 15 == 0) := by decide

/-- T48: the old VF is the operand, the new one the carry. -/
theorem test_addReg_T48 : nextIs (exec (.addReg 1 0xF) (withV [(1, 0xFF), (15, 1)]))
    (fun t => t.getV 1 == 0 && t.getV 15 == 1) := by decide

/-- T50: a borrow. -/
theorem test_subReg_T50 : nextIs (exec (.subReg 1 2) (withV [(1, 0x03), (2, 0x0A), (15, 1)]))
    (fun t => t.getV 1 == 0xF9 && t.getV 15 == 0) := by decide

/-- T51: equal operands give flag 0. -/
theorem test_subReg_T51 : nextIs (exec (.subReg 1 2) (withV [(1, 7), (2, 7), (15, 1)]))
    (fun t => t.getV 1 == 0 && t.getV 15 == 0) := by decide

/-- T56: the source is Vy. -/
theorem test_shrReg_T56 : nextIs (exec (.shrReg 1 2) (withV [(1, 0xFF), (2, 0x05)]))
    (fun t => t.getV 1 == 0x02 && t.getV 15 == 1 && t.getV 2 == 0x05) := by decide

/-- T59: the flag wins over the result. -/
theorem test_shrReg_T59 : nextIs (exec (.shrReg 0xF 2) (withV [(2, 6), (15, 0x55)])) (fun t => t.getV 15 == 0) := by
  decide

/-- T60. -/
theorem test_subnReg_T60 : nextIs (exec (.subnReg 0xF 2) (withV [(2, 6), (15, 2)])) (fun t => t.getV 15 == 1) := by
  decide

/-- T63. -/
theorem test_subnReg_T63 : nextIs (exec (.subnReg 1 2) (withV [(1, 0x0A), (2, 0x03), (15, 1)]))
    (fun t => t.getV 1 == 0xF9 && t.getV 15 == 0) := by decide

/-- T65. -/
theorem test_shlReg_T65 : nextIs (exec (.shlReg 1 2) (withV [(1, 0xFF), (2, 0x81)]))
    (fun t => t.getV 1 == 0x02 && t.getV 15 == 1 && t.getV 2 == 0x81) := by decide

/-- T68. -/
theorem test_shlReg_T68 : nextIs (exec (.shlReg 0xF 2) (withV [(2, 0x7F), (15, 1)])) (fun t => t.getV 15 == 0) := by
  decide

/-- T19. -/
theorem test_sneReg_T19 : nextIs (exec (.sneReg 1 2) (withV [(1, 7), (2, 8)])) (fun t => t.pc == 0x204) := by decide

/-- T20. -/
theorem test_sneReg_T20 : nextIs (exec (.sneReg 1 2) (withV [(1, 7), (2, 7)])) (fun t => t.pc == 0x202) := by decide

/-- T81. -/
theorem test_ldI_T81 : nextIs (exec (.ldI 0xFFF) { State.reset with I := 0x1234 }) (fun t => t.I == 0x0FFF) := by decide

/-- T10: the sum is not reduced. -/
theorem test_jpV0_T10 : nextIs (exec (.jpV0 0xFFF) (withV [(0, 0xFF)])) (fun t => t.pc == 0x10FE) := by decide

/-- T11: V0, not V2. -/
theorem test_jpV0_T11 : nextIs (exec (.jpV0 0x200) (withV [(2, 0x55)])) (fun t => t.pc == 0x200) := by decide

/-- T69. -/
theorem test_rnd_T69 : nextIs (exec (.rnd 1 0x0F) { State.reset with pins := ⟨0, 0xB7, false⟩ })
    (fun t => t.getV 1 == 0x07) := by decide

/-- The state of T112: a block of two by two at the corner. -/
def corner : State := { (withV [(1, 0x3F), (2, 0x1F)]) with I := 0x300, mem := (withBytes 0x300 [0xC0, 0xC0]).mem }

/-- T112: column and row wrap. -/
theorem test_drw_T112 : nextIs (exec (.drw 1 2 2) corner)
    (fun t => t.disp == (withCells [0, 63, 1984, 2047]).disp && t.getV 15 == 0 && t.redraw) := by decide

/-- T121: the row anchor is the old VF. -/
theorem test_drw_T121 : nextIs
    (exec (.drw 1 0xF 1) { (withV [(1, 2), (15, 1)]) with I := 0x300, mem := (withBytes 0x300 [0x80]).mem })
    (fun t => t.disp == (withCells [66]).disp && t.getV 15 == 0) := by decide

/-- T132: the low nibble selects the key. -/
theorem test_skp_T132 : nextIs (exec (.skp 1) { (withV [(1, 0x25)]) with keys := 0x0020 })
    (fun t => t.pc == 0x204 && t.keys == 0x0020) := by decide

/-- T131. -/
theorem test_skp_T131 : nextIs (exec (.skp 1) { (withV [(1, 0x05)]) with keys := 0x0010 }) (fun t => t.pc == 0x202) := by
  decide

/-- T135. -/
theorem test_sknp_T135 : nextIs (exec (.sknp 1) { (withV [(1, 0xF5)]) with keys := 0x0020 })
    (fun t => t.pc == 0x202) := by decide

/-- T134. -/
theorem test_sknp_T134 : nextIs (exec (.sknp 1) (withV [(1, 0x05)])) (fun t => t.pc == 0x204) := by decide

/-- T144. -/
theorem test_ldVxDT_T144 : nextIs (exec (.ldVxDT 0xF) { (withV [(15, 1)]) with dt := 9 })
    (fun t => t.getV 15 == 9 && t.dt == 9) := by decide

/-- T136: the lowest key, whose flag alone is cleared. -/
theorem test_ldVxK_T136 : nextIs (exec (.ldVxK 5) { State.reset with keys := 0x0088 })
    (fun t => t.getV 5 == 3 && t.keys == 0x0080 && t.pc == 0x202 && t.mode == .running) := by decide

/-- T137: no key. -/
theorem test_ldVxK_T137 : nextIs (exec (.ldVxK 5) (withV [(5, 9)]))
    (fun t => t.getV 5 == 9 && t.pc == 0x200 && t.mode == .awaitKey) := by decide

/-- T141. -/
theorem test_ldDTVx_T141 : nextIs (exec (.ldDTVx 1) { (withV [(1, 3)]) with dt := 0xFF })
    (fun t => t.dt == 3 && t.st == 0) := by decide

/-- T142: the tone starts. -/
theorem test_ldSTVx_T142 : nextIs (exec (.ldSTVx 1) (withV [(1, 0x1E)]))
    (fun t => t.st == 0x1E && t.dt == 0 && t.tone) := by decide

/-- T83: the sum wraps and sets no flag. -/
theorem test_addI_T83 : nextIs (exec (.addI 1) { (withV [(1, 1)]) with I := 0xFFFF })
    (fun t => t.I == 0 && t.getV 15 == 0) := by decide

/-- T87: the whole byte counts. -/
theorem test_ldF_T87 : nextIs (exec (.ldF 1) (withV [(1, 0xFF)])) (fun t => t.I == 0x04FB) := by decide

/-- T92: the address wraps. -/
theorem test_ldB_T92 : nextIs (exec (.ldB 1) { (withV [(1, 0x7B)]) with I := 0xFFF })
    (fun t => t.mem.read 0xFFF == 1 && t.mem.read 0 == 2 && t.mem.read 1 == 3 && t.I == 0xFFF) := by decide

/-- T88. -/
theorem test_ldB_T88 : nextIs (exec (.ldB 1) { (withV [(1, 0xEA)]) with I := 0x300 })
    (fun t => t.mem.read 0x300 == 2 && t.mem.read 0x301 == 3 && t.mem.read 0x302 == 4) := by decide

/-- T94: V0 to V2, and no further. -/
theorem test_storeRegs_T94 : nextIs
    (exec (.storeRegs 2) { (withV [(0, 0x11), (1, 0x22), (2, 0x33), (3, 0x44)]) with I := 0x400 })
    (fun t => t.mem.read 0x400 == 0x11 && t.mem.read 0x402 == 0x33 && t.mem.read 0x403 == 0 && t.I == 0x400) := by
  decide

/-- T96. -/
theorem test_storeRegs_T96 : nextIs (exec (.storeRegs 1) { (withV [(0, 0xAA), (1, 0xBB)]) with I := 0xFFF })
    (fun t => t.mem.read 0xFFF == 0xAA && t.mem.read 0 == 0xBB) := by decide

/-- T97: V3 stays. -/
theorem test_loadRegs_T97 : nextIs
    (exec (.loadRegs 2) { (withV [(3, 0x99)]) with I := 0x300, mem := (withBytes 0x300 [2, 3, 4, 5]).mem })
    (fun t => t.getV 0 == 2 && t.getV 2 == 4 && t.getV 3 == 0x99 && t.I == 0x300) := by decide

/-- T99: the second byte comes from the default FONT. -/
theorem test_loadRegs_T99 : nextIs
    (exec (.loadRegs 1) { State.reset with I := 0xFFF, mem := (withBytes 0xFFF [0x12]).mem })
    (fun t => t.getV 0 == 0x12 && t.getV 1 == 0xF0) := by decide

/-! ### Whole cycles and host events (95_test_vectors.md, V1 to V12; E3 to E5) -/

/-- V1: a timer written and ticked in one cycle. -/
theorem test_cycle_V1 : nextIs (step { atStart 0xF115 ⟨0, 0, true⟩ with V := (withV [(1, 3)]).V })
    (fun t => t.dt == 2 && t.pc == 0x202) := by decide

/-- V3: the timer is read before the tick. -/
theorem test_cycle_V3 : nextIs (step { atStart 0xF207 ⟨0, 0, true⟩ with dt := 1 })
    (fun t => t.getV 2 == 1 && t.dt == 0) := by decide

/-- V6: the key the instruction cleared is sampled again. -/
theorem test_cycle_V6 : nextIs (step { atStart 0xF50A ⟨0x0008, 0, false⟩ with keys := 0x0008 })
    (fun t => t.getV 5 == 3 && t.keys == 0x0008) := by decide

/-- V8: the instruction sees the sample of the cycle before. -/
theorem test_cycle_V8 : nextIs (step { atStart 0xE19E ⟨0x0020, 0, false⟩ with V := (withV [(1, 5)]).V })
    (fun t => t.pc == 0x202 && t.keys == 0x0020) := by decide

/-- V9: an error leaves the timers and keys alone. -/
theorem test_cycle_V9 : nextIs (step { atStart 0xFFFF ⟨0x0002, 0, true⟩ with dt := 5, keys := 0x0004 })
    (fun t => t.err == some (.unknownOpcode 0xFFFF) && t.mode == .halted && t.dt == 5 && t.keys == 0x0004 &&
      t.pc == 0x200 && t.ir == 0xFFFF) := by decide

/-- V10: a halted machine does not change. -/
theorem test_cycle_V10 : nextIs
    (step { atStart 0x6001 ⟨0x0002, 0, true⟩ with mode := .halted, err := some .stackOverflow, dt := 5 })
    (fun t => t.dt == 5 && t.keys == 0 && t.pc == 0x200 && t.getV 0 == 0) := by decide

/-- V12: the wait goes on and the timer runs. -/
theorem test_cycle_V12 : nextIs (step { atStart 0xF50A ⟨0x0010, 0, true⟩ with mode := .awaitKey, dt := 9 })
    (fun t => t.mode == .awaitKey && t.pc == 0x200 && t.keys == 0x0010 && t.dt == 8) := by decide

/-- T100: a store into the next instruction is fetched; P6: memory beyond a program is 0x0000. -/
theorem test_store_then_fetch : nextIs (exec (.ldB 0) { (withV [(0, 0x80)]) with I := 0x202 })
    (fun t => t.fetchWord == 0x0102 && decodeWord t.fetchWord == .error (.unknownOpcode 0x0102)) := by decide

/-- E4 in small: the image from 0x200, and zeros after it. -/
theorem test_load_E4 : nextIs (step { withV [(0, 9)] with events := [.load [0x6A, 0x05]] })
    (fun t => t.fetchWord == 0x6A05 && t.mem.read 0x202 == 0 && t.getV 0 == 0 && t.mem.read 0 == 0xF0) := by decide

/-- The word `withFetchWord` places is the one the next step runs, from reset and across the top of memory. -/
theorem test_withFetchWord :
    nextIs (step (State.reset.withFetchWord 16 0x6A05)) (fun t => t.getV 0xA == 5 && t.pc == 0x202) ∧
    nextIs (step ({ State.reset with pc := 0xFFF }.withFetchWord 16 0x6A05)) (fun t => t.getV 0xA == 5) := by decide

/-! ### Witnesses: a concrete input for the hypotheses of each statement that has some -/

theorem witness_encode_of_decode : decodeWord 0xDEF5 = .ok (.drw 0xE 0xF 5) := by decide

theorem witness_opcode_map :
    (⟨0xF00F, 0x8004⟩ ∈ opcodeRows ∧ OpcodeRow.selects ⟨0xF00F, 0x8004⟩ 0x8124 = true) ∧ wordLegal 0x8128 = false := by
  decide

theorem witness_step_runs :
    (atStart 0x6A05 quiet).mode ≠ .halted ∧ (atStart 0x6A05 quiet).nextEvent = .cycle quiet ∧
    decodeWord (atStart 0x6A05 quiet).fetchWord = .ok (.ldImm 0xA 5) := by decide

theorem witness_unknown_word :
    (atStart 0x8128 quiet).mode ≠ .halted ∧ (atStart 0x8128 quiet).nextEvent = .cycle quiet ∧
    decodeWord (atStart 0x8128 quiet).fetchWord = .error (.unknownOpcode 0x8128) := by decide

/-- Both clauses, at sp = 16 and at sp = 0. -/
theorem witness_stack_errors :
    ({ atStart 0x2300 quiet with sp := 16 }.mode ≠ .halted ∧
      { atStart 0x2300 quiet with sp := 16 }.nextEvent = .cycle quiet ∧
      decodeWord { atStart 0x2300 quiet with sp := 16 }.fetchWord = .ok (.call 0x300) ∧
      { atStart 0x2300 quiet with sp := 16 }.sp.val = 16) ∧
    ((atStart 0x00EE quiet).mode ≠ .halted ∧ (atStart 0x00EE quiet).nextEvent = .cycle quiet ∧
      decodeWord (atStart 0x00EE quiet).fetchWord = .ok .ret ∧ (atStart 0x00EE quiet).sp.val = 0) := by decide

/-- A halted machine whose next event is a cycle. -/
theorem witness_halted :
    let s := { atStart 0xFFFF quiet with mode := .halted, err := some .stackUnderflow }
    s.mode = .halted ∧ (∀ rom, s.nextEvent ≠ .load rom) ∧ s.nextEvent ≠ .shutdown ∧ s.nextEvent = .cycle quiet :=
  ⟨rfl, fun _ => nofun, by decide, rfl⟩

/-- Both sides of the case: a Shutdown to come, and none. -/
theorem witness_shutdown :
    { State.reset with events := [.shutdown] }.nextEvent = .shutdown ∧ (atStart 0x00E0 quiet).nextEvent ≠ .shutdown := by
  decide

/-- A cycle that sets `dt` to 255 with a tick due. -/
theorem witness_cycle_phases :
    let s := { atStart 0xF115 quiet with V := (withV [(1, 0xFF)]).V }
    s.mode ≠ .halted ∧ ∃ t, instrStep (s.setPins ⟨0x8001, 0, true⟩) = .next t ∧ t.mode ≠ .halted ∧ t.dt = 0xFF :=
  ⟨by decide, _, rfl, by decide, by decide⟩

/-- Each clause: a timer at 1, at 255 and at 0. -/
theorem witness_timer_tick :
    { State.reset with dt := 1 }.dt.toNat > 0 ∧ { State.reset with dt := 255 }.dt.toNat > 0 ∧ State.reset.dt.toNat = 0 ∧
    { State.reset with st := 1 }.st.toNat > 0 ∧ { State.reset with st := 255 }.st.toNat > 0 ∧
    State.reset.st.toNat = 0 := by decide

theorem witness_key_sample : (0 < 16 ∧ 15 < 16) ∧ Elem.pc ∉ [Elem.keys] := by decide

theorem witness_render_ack : { State.reset with redraw := true, events := [.renderAck] }.nextEvent = .renderAck := by
  decide

/-- The four rows of the table, a tick at st = 1, and a Load that succeeds on a sounding machine. -/
theorem witness_tone :
    (State.reset.st.toNat = 0 ∧ ((withV [(3, 1)]).getV 3).toNat > 0) ∧
    ({ State.reset with st := 1 }.st.toNat > 0 ∧ (State.reset.getV 3).toNat = 0) ∧
    ({ (withV [(3, 1)]) with st := 1 }.st.toNat > 0 ∧ ((withV [(3, 1)]).getV 3).toNat > 0) ∧
    (State.reset.st.toNat = 0 ∧ (State.reset.getV 3).toNat = 0) ∧
    { State.reset with st := 1 }.st.toNat = 1 ∧
    (∃ t, loadRom [0x12, 0x00] { State.reset with st := 1 } = .ok t) :=
  ⟨by decide, by decide, by decide, by decide, by decide, _, rfl⟩

/-- An image of exactly 3584 bytes and the empty one, with a place in each range of the statement. -/
theorem witness_load :
    (List.replicate 3584 (0xAA : Byte)).length ≤ 3584 ∧ 3583 < (List.replicate 3584 (0xAA : Byte)).length ∧
    ([] : List Byte).length ≤ 3584 ∧ (0x50 ≤ 0x1FF ∧ 0x1FF < 0x200) ∧
    (0x200 + ([] : List Byte).length ≤ 0x200 ∧ 0x200 < 0x1000) ∧ 79 < 80 := by
  simp only [List.length_replicate]; decide

/-- A machine whose next event is a Load that fits. -/
theorem witness_load_event :
    [(0x12 : Byte), 0x00].length ≤ 3584 ∧
    { State.reset with events := [.load [0x12, 0x00]] }.nextEvent = .load [0x12, 0x00] := by decide

/-- An image of 3585 bytes that the host loads. -/
theorem witness_rom_too_large :
    (List.replicate 3585 (0xAA : Byte)).length > 3584 ∧
    { State.reset with events := [.load (List.replicate 3585 0xAA)] }.nextEvent = .load (List.replicate 3585 0xAA) :=
  ⟨by simp only [List.length_replicate]; decide, rfl⟩

/-- The frames of register writes: a destination that is not VF, one that is, and another register. -/
theorem witness_register_frames : ((14 : Nib) ≠ 15) ∧ ((0 : Nib) ≠ 14) ∧ ((15 : Nib) ≠ 0) ∧ Elem.mem ∉ [Elem.V, .pc] ∧
    (0 < 8 ∧ 7 < 8) := by decide

/-- Each clause of the call: depths 0, 15 and 16. -/
theorem witness_call :
    State.reset.sp.val < 16 ∧ { State.reset with sp := 15 }.sp.val < 16 ∧ { State.reset with sp := 16 }.sp.val = 16 ∧
    (14 : Fin 16).val ≠ { State.reset with sp := 15 }.sp.val := by decide

/-- Each clause of the return: depths 1, 16 and 0. -/
theorem witness_return :
    { State.reset with sp := 1 }.sp.val = (0 : Fin 16).val + 1 ∧
    { State.reset with sp := 16 }.sp.val = (15 : Fin 16).val + 1 ∧ State.reset.sp.val = 0 := by decide

/-- The lowest key is 0, and the lowest key is 15. -/
theorem witness_key_wait_takes :
    ((0xFFFF : BitVec 16).getLsbD (0 : Nib).val = true ∧ ∀ j, j < (0 : Nib).val → (0xFFFF : BitVec 16).getLsbD j = false) ∧
    ((0x8000 : BitVec 16).getLsbD (15 : Nib).val = true ∧
      ∀ j, j < (15 : Nib).val → (0x8000 : BitVec 16).getLsbD j = false) := by decide

theorem witness_key_wait_holds : ∀ k, k < 16 → State.reset.keys.getLsbD k = false := by decide

/-- An address outside and the last address inside the three bytes, at the top of memory. -/
theorem witness_bcd :
    let s := { State.reset with I := 0xFFF }
    (∀ k, k < 3 → 2 % 4096 ≠ s.effAddr k % 4096) ∧ s.effAddr 2 % 4096 = 1 := by decide

/-- The registers 0 and x, and an address next to the range, for x = 0 and for x = 15. -/
theorem witness_store :
    let s := { State.reset with I := 0xFFF }
    ((0 : Nib).val ≤ (0 : Nib).val ∧ ∀ k, k ≤ (0 : Nib).val → 0 % 4096 ≠ s.effAddr k % 4096) ∧
    ((15 : Nib).val ≤ (15 : Nib).val ∧ ∀ k, k ≤ (15 : Nib).val → 15 % 4096 ≠ s.effAddr k % 4096) := by decide

/-- Registers in and above the range. -/
theorem witness_load_registers : (0 : Nib).val ≤ (14 : Nib).val ∧ (14 : Nib).val ≤ (14 : Nib).val ∧
    (14 : Nib).val < (15 : Nib).val := by decide

/-- Registers 14 and 15 stored over the word at the next `pc`, and registers 0 and 1 over the wrap of memory. -/
theorem witness_store_then_fetch :
    ((14 : Nib).val + 1 ≤ (15 : Nib).val ∧
      { State.reset with I := 0x1F4 }.effAddr (14 : Nib).val % 4096 = (State.reset.pc + 2).toNat % 4096) ∧
    ((0 : Nib).val + 1 ≤ (1 : Nib).val ∧
      { State.reset with I := 0xFFF, pc := 0xFFD }.effAddr (0 : Nib).val % 4096 =
        (({ State.reset with I := 0xFFF, pc := 0xFFD } : State).pc + 2).toNat % 4096) := by decide

/-- A covered cell, and cells that are not, in the state of T112. -/
theorem witness_sprite :
    SpriteCovers corner.mem 0x300 63 31 2 0 ∧ SpriteCovers corner.mem 0x300 63 31 2 2047 ∧
    ¬SpriteCovers corner.mem 0x300 63 31 2 1 ∧ ¬SpriteCovers corner.mem 0x300 63 31 0 0 :=
  ⟨⟨1, by decide, 1, by decide, by decide, by decide⟩, ⟨0, by decide, 0, by decide, by decide, by decide⟩,
   by rintro ⟨row, hr, col, hc, hb, h⟩; revert row col; decide,
   by rintro ⟨row, hr, -⟩; exact absurd hr (Nat.not_lt_zero _)⟩

theorem witness_draw_twice : (1 : Nib) ≠ 15 ∧ (14 : Nib) ≠ 15 := by decide

/-- An instruction that is neither 00E0 nor Dxyn, and its next state. -/
theorem witness_display :
    Instr.ldImm 1 2 ≠ .cls ∧ (∀ x y n, Instr.ldImm 1 2 ≠ .drw x y n) ∧
    ∃ t, exec (.ldImm 1 2) State.reset = .next t :=
  ⟨by decide, fun _ _ _ => nofun, _, rfl⟩

/-- Next states of an instruction for the rules of the whole machine: a register write, a store, a call at the limit. -/
theorem witness_next_states :
    (∃ t, exec (.ldImm 1 2) State.reset = .next t) ∧ (∃ t, exec (.storeRegs 15) State.reset = .next t) ∧
    (∃ t, exec (.call 0x300) { State.reset with sp := 16 } = .next t) := ⟨⟨_, rfl⟩, ⟨_, rfl⟩, ⟨_, rfl⟩⟩

/-- A register that is no destination, VF in an instruction without a flag, and a flag writer. -/
theorem witness_destinations :
    (∃ t, exec (.addReg 1 2) State.reset = .next t) ∧ (Instr.addReg 1 2).namesDest 3 = false ∧ (3 : Nib) ≠ 15 ∧
    (Instr.addReg 1 2).writesFlag = true ∧ (Instr.addImm 1 2).namesDest 15 = false ∧
    (Instr.addImm 1 2).writesFlag = false := ⟨⟨_, rfl⟩, by decide⟩

/-- A callee that comes back at the caller's depth, from depth 15. -/
theorem witness_call_return :
    ∃ (h : { State.reset with sp := 15 }.sp.val < 16) (t : State),
      exec (.call 0x300) { State.reset with sp := 15 } = .next t ∧
      { State.reset with sp := 16, stack := t.stack }.sp = t.sp ∧
      { State.reset with sp := 16, stack := t.stack }.stack[15] = t.stack[15] := ⟨by decide, _, rfl, rfl, rfl⟩

theorem witness_self_jump :
    let s := withBytes 0x200 [0x12, 0x00]
    s.mode = .running ∧ s.events = [] ∧ decodeWord s.fetchWord = .ok (.jp 0x200) ∧ s.pc.toNat = (0x200 : Addr12).toNat := by
  decide

/-- A waiting machine in the invariant, and its next state. -/
theorem witness_invariant :
    let s := { atStart 0xF50A quiet with mode := .awaitKey }
    s.Inv ∧ ∃ t, step s = .next t := ⟨⟨by decide, by decide, by decide⟩, _, rfl⟩

theorem witness_font : ∃ t, step (atStart 0xF055 quiet) = .next t := ⟨_, rfl⟩

end Sys2Proof.Tests
end

section
/-! SUPPORT. How a step changes memory: an instruction stores a run of bytes, empty unless it is Fx33 or Fx55; the rest
of a cycle stores nothing; Load builds a new memory with the old FONT. The proof of O59 stands on this. -/

namespace Sys2Proof.Machine

open Host (Outcome)

/-- The bytes an instruction stores at `I`, `I + 1`, ...: Fx33's digits, Fx55's registers, and none otherwise
(42_index_memory.md R144, R145). -/
def storedBytes (s : State) : Instr → List Byte
  | .ldB x => bcdDigits (s.getV x)
  | .storeRegs x => s.regsUpTo x
  | _ => []

/-- An instruction changes memory by its stored bytes alone. -/
theorem exec_mem {i : Instr} {s t : State} (h : exec i s = .next t) :
    t.mem = s.mem.writeBytes (s.effAddr 0) (storedBytes s i) := by
  cases i with
  | ret =>
    simp only [exec, execRet] at h
    split at h <;> cases h <;> rfl
  | call nnn =>
    simp only [exec, execCall] at h
    split at h <;> cases h <;> rfl
  | ldVxK x =>
    simp only [exec, execLdVxK] at h
    split at h <;> cases h <;> rfl
  | _ => cases h; rfl

/-- The instruction step changes memory by a run of byte writes, empty for an unknown word (60_exceptions.md R201). -/
theorem instrStep_mem {s t : State} (h : instrStep s = .next t) : ∃ a vs, t.mem = s.mem.writeBytes a vs := by
  cases hd : decodeWord s.fetchWord with
  | ok i =>
    rw [instrStep_of_ok hd] at h
    have hmem := exec_mem h
    rw [State.setIr_mem] at hmem
    exact ⟨_, _, hmem⟩
  | error e =>
    rw [instrStep_of_error hd] at h
    cases h
    exact ⟨0, [], rfl⟩

theorem mapNext_eq_next {f : State → State} {o : Outcome State Fault Refusal} {t : State} :
    mapNext f o = .next t ↔ ∃ u, o = .next u ∧ f u = t := by
  cases o <;> simp [mapNext]

/-- A cycle changes memory by a run of byte writes, empty in HALTED (60_exceptions.md R208, R211). -/
theorem cycle_mem {inp : CycleInputs} {s t : State} (h : cycle inp s = .next t) :
    ∃ a vs, t.mem = s.mem.writeBytes a vs := by
  by_cases hm : s.mode = .halted
  · rw [cycle_of_halted inp hm] at h
    cases h
    exact ⟨0, [], rfl⟩
  · rw [cycle_of_running inp hm, mapNext_eq_next] at h
    obtain ⟨u, hu, rfl⟩ := h
    simpa using instrStep_mem hu

/-- Byte writes change no FONT, so a cycle does not. -/
theorem cycle_font {inp : CycleInputs} {s t : State} (h : cycle inp s = .next t) : t.mem.font = s.mem.font := by
  obtain ⟨a, vs, hmem⟩ := cycle_mem h
  rw [hmem, Memory.writeBytes_font]

/-- A Load builds its memory from the machine's own FONT (70_reset_and_hazards.md R230). -/
theorem loadRom_font {rom : List Byte} {s t : State} (h : loadRom rom s = .ok t) : t.mem.font = s.mem.font := by
  unfold loadRom at h
  split at h <;> cases h
  rfl

/-- Settles O59, by the host's event: a cycle writes bytes, a Load copies FONT, the others leave memory alone. -/
theorem fontIsNeverWritten : Obligations.FontIsNeverWritten := by
  intro s t h
  rw [← s.takeEvent_mem]
  cases he : s.nextEvent with
  | cycle inp =>
    rw [step_of_cycle he] at h
    exact cycle_font h
  | renderAck =>
    rw [step_of_renderAck he] at h
    cases h
    rfl
  | load rom =>
    cases hl : loadRom rom s.takeEvent with
    | ok u =>
      rw [step_of_load he hl] at h
      cases h
      exact loadRom_font hl
    | error e =>
      rw [step_of_load_error he hl] at h
      cases h
      rfl
  | shutdown =>
    rw [step_of_shutdown he] at h
    cases h

end Sys2Proof.Machine
end

section
/-! SUPPORT. Each outcome of the three instructions that have two: 00EE, 2nnn and Fx0A. -/

namespace Sys2Proof.Machine

/-! ### The outcome by the condition that decides it -/

theorem exec_ret_of_saved {s : State} (h : 0 < s.sp.val) : exec .ret s = .next ((s.drop h).setPc (s.top h + 2)) :=
  dif_pos h

theorem exec_ret_of_empty {s : State} (h : ¬0 < s.sp.val) : exec .ret s = .next (s.raise .stackUnderflow) :=
  dif_neg h

theorem exec_call_of_room {s : State} (nnn : Addr12) (h : s.sp.val < 16) :
    exec (.call nnn) s = .next ((s.push s.pc h).setPc (zextAddr nnn)) :=
  dif_pos h

theorem exec_call_of_full {s : State} (nnn : Addr12) (h : ¬s.sp.val < 16) :
    exec (.call nnn) s = .next (s.raise .stackOverflow) :=
  dif_neg h

theorem exec_ldVxK_of_key {s : State} {k : Nat} (x : Nib) (h : firstKey s.keys = some k) :
    exec (.ldVxK x) s =
      .next (((s.setV x (BitVec.ofNat 8 k)).setKeys (clearKey s.keys k)).setMode .running).advance := by
  simp [exec, execLdVxK, h]

theorem exec_ldVxK_of_no_key {s : State} (x : Nib) (h : firstKey s.keys = none) :
    exec (.ldVxK x) s = .next (s.setMode .awaitKey) := by
  simp [exec, execLdVxK, h]

/-! ### The next states -/

/-- A return pops, or raises StackUnderflow on an empty stack (40_control_flow.md R101). -/
theorem exec_ret_cases {s t : State} (h : exec .ret s = .next t) :
    (∃ hsp : 0 < s.sp.val, t = (s.drop hsp).setPc (s.top hsp + 2)) ∨
    (¬0 < s.sp.val ∧ t = s.raise .stackUnderflow) := by
  by_cases hsp : 0 < s.sp.val
  · rw [exec_ret_of_saved hsp] at h
    cases h
    exact .inl ⟨hsp, rfl⟩
  · rw [exec_ret_of_empty hsp] at h
    cases h
    exact .inr ⟨hsp, rfl⟩

/-- A call pushes, or raises StackOverflow on a full stack (40_control_flow.md R103). -/
theorem exec_call_cases {nnn : Addr12} {s t : State} (h : exec (.call nnn) s = .next t) :
    (∃ hsp : s.sp.val < 16, t = (s.push s.pc hsp).setPc (zextAddr nnn)) ∨
    (¬s.sp.val < 16 ∧ t = s.raise .stackOverflow) := by
  by_cases hsp : s.sp.val < 16
  · rw [exec_call_of_room nnn hsp] at h
    cases h
    exact .inl ⟨hsp, rfl⟩
  · rw [exec_call_of_full nnn hsp] at h
    cases h
    exact .inr ⟨hsp, rfl⟩

/-- A key wait takes the least pressed key, or stays at its instruction (44_keypad_timers.md R173). -/
theorem exec_ldVxK_cases {x : Nib} {s t : State} (h : exec (.ldVxK x) s = .next t) :
    (∃ k, firstKey s.keys = some k ∧
      t = (((s.setV x (BitVec.ofNat 8 k)).setKeys (clearKey s.keys k)).setMode .running).advance) ∨
    (firstKey s.keys = none ∧ t = s.setMode .awaitKey) := by
  cases hk : firstKey s.keys with
  | some k =>
    rw [exec_ldVxK_of_key x hk] at h
    cases h
    exact .inl ⟨k, rfl, rfl⟩
  | none =>
    rw [exec_ldVxK_of_no_key x hk] at h
    cases h
    exact .inr ⟨rfl, rfl⟩

/-- Every instruction has a next state; a stack error's is the halted one (60_exceptions.md R207). -/
theorem exec_has_next (i : Instr) (s : State) : ∃ t, exec i s = .next t := by
  cases i with
  | ret =>
    by_cases h : 0 < s.sp.val
    · exact ⟨_, exec_ret_of_saved h⟩
    · exact ⟨_, exec_ret_of_empty h⟩
  | call nnn =>
    by_cases h : s.sp.val < 16
    · exact ⟨_, exec_call_of_room nnn h⟩
    · exact ⟨_, exec_call_of_full nnn h⟩
  | ldVxK x =>
    cases h : firstKey s.keys with
    | some k => exact ⟨_, exec_ldVxK_of_key x h⟩
    | none => exact ⟨_, exec_ldVxK_of_no_key x h⟩
  | _ => exact ⟨_, rfl⟩

end Sys2Proof.Machine
end

section
/-! SUPPORT. What an instruction does to `mode` and `err`, and from it the invariant of every run: a step keeps memory
canonical, `err` exactly in HALTED and a waiting machine at its Fx0A. The proofs of O57 and O58 stand on this. -/

namespace Sys2Proof.Machine

/-! ### The invariant's clauses as propositions -/

theorem State.errOk_iff {s : State} : s.errOk = true ↔ (s.mode = .halted ↔ s.err.isSome = true) := by
  rw [State.errOk, beq_iff_eq, Bool.eq_iff_iff, decide_eq_true_iff]

theorem State.waitOk_iff {s : State} :
    s.waitOk = true ↔ (s.mode = .awaitKey → ∃ x, decodeWord s.fetchWord = .ok (.ldVxK x)) := by
  unfold State.waitOk
  split
  case h_1 x hm hd => simp [hd]
  case h_2 hm hd => simpa [hm] using hd
  case h_3 hne _ => simpa using fun hm => absurd hm hne

/-- The invariant speaks of memory, `pc`, `mode` and `err` alone. -/
theorem State.Inv.congr {s t : State} (hs : s.Inv) (hmem : t.mem = s.mem) (hpc : t.pc = s.pc) (hmode : t.mode = s.mode)
    (herr : t.err = s.err) : t.Inv := by
  simpa only [State.Inv, State.errOk, State.waitOk, State.fetchWord, hmem, hpc, hmode, herr] using hs

/-! ### The instruction step -/

/-- What an instruction does to `mode` and `err`: Fx0A leaves the machine running or waiting where it is, an error
halts it, and every other instruction changes neither (44_keypad_timers.md R177; 60_exceptions.md R207). -/
theorem exec_mode_err {i : Instr} {s t : State} (h : exec i s = .next t) :
    ((∀ x, i ≠ .ldVxK x) ∧ t.mode = s.mode ∧ t.err = s.err) ∨
    ((∃ x, i = .ldVxK x) ∧ (t.mode = .running ∧ t.err = s.err ∨ t = s.setMode .awaitKey)) ∨
    (∃ e, t.mode = .halted ∧ t.err = some e) := by
  cases i with
  | ldVxK x =>
    obtain ⟨k, -, rfl⟩ | ⟨-, rfl⟩ := exec_ldVxK_cases h
    · exact .inr (.inl ⟨⟨x, rfl⟩, .inl ⟨rfl, rfl⟩⟩)
    · exact .inr (.inl ⟨⟨x, rfl⟩, .inr rfl⟩)
  | ret =>
    obtain ⟨_, rfl⟩ | ⟨-, rfl⟩ := exec_ret_cases h
    · exact .inl ⟨nofun, rfl, rfl⟩
    · exact .inr (.inr ⟨_, rfl, rfl⟩)
  | call nnn =>
    obtain ⟨_, rfl⟩ | ⟨-, rfl⟩ := exec_call_cases h
    · exact .inl ⟨nofun, rfl, rfl⟩
    · exact .inr (.inr ⟨_, rfl, rfl⟩)
  | _ => cases h; exact .inl ⟨nofun, rfl, rfl⟩

/-- A state that an error has just halted meets the invariant when its memory does. -/
theorem State.Inv.of_halted {s : State} {e : ExecError} (hmem : s.mem.wf = true) (hmode : s.mode = .halted)
    (herr : s.err = some e) : s.Inv :=
  ⟨hmem, State.errOk_iff.mpr (by simp [hmode, herr]), State.waitOk_iff.mpr (by simp [hmode])⟩

/-- Executing the instruction at `pc` keeps the invariant: a waiting machine has only its Fx0A to execute, and the Fx0A
that waits leaves memory and `pc` alone. -/
theorem exec_keeps_inv {i : Instr} {s t : State} (hs : s.Inv) (hrun : s.mode ≠ .halted)
    (hd : decodeWord s.fetchWord = .ok i) (h : exec i s = .next t) : t.Inv := by
  obtain ⟨hmem, herr, hwait⟩ := hs
  rw [State.errOk_iff] at herr
  rw [State.waitOk_iff] at hwait
  have hmem' : t.mem.wf = true := by
    rw [exec_mem h]
    exact Memory.wf_writeBytes hmem _ _
  obtain ⟨hi, hm, he⟩ | ⟨⟨x, rfl⟩, ⟨hm, he⟩ | rfl⟩ | ⟨e, hm, he⟩ := exec_mode_err h
  · refine ⟨hmem', State.errOk_iff.mpr (by rw [hm, he]; exact herr), State.waitOk_iff.mpr fun ha => ?_⟩
    obtain ⟨x, hx⟩ := hwait (hm ▸ ha)
    exact absurd (Except.ok.inj (hd.symm.trans hx)) (hi x)
  · exact ⟨hmem', State.errOk_iff.mpr (by simpa [hm, he, hrun] using herr), State.waitOk_iff.mpr (by simp [hm])⟩
  · exact ⟨hmem', State.errOk_iff.mpr (by simpa [hrun] using herr), State.waitOk_iff.mpr fun _ => ⟨x, hd⟩⟩
  · exact .of_halted hmem' hm he

/-- The instruction step keeps the invariant: it executes the word at `pc`, or halts on an unknown one
(60_exceptions.md R219, R201). -/
theorem instrStep_keeps_inv {s t : State} (hs : s.Inv) (hrun : s.mode ≠ .halted) (h : instrStep s = .next t) :
    t.Inv := by
  cases hd : decodeWord s.fetchWord with
  | ok i =>
    rw [instrStep_of_ok hd] at h
    exact exec_keeps_inv (s := s.setIr s.fetchWord) (hs.congr rfl rfl rfl rfl) hrun hd h
  | error e =>
    rw [instrStep_of_error hd] at h
    cases h
    exact .of_halted hs.1 rfl rfl

/-! ### The host's transitions -/

/-- A cycle keeps the invariant: beside its instruction step it touches inputs, keys and timers alone. -/
theorem cycle_keeps_inv {inp : CycleInputs} {s t : State} (hs : s.Inv) (h : cycle inp s = .next t) : t.Inv := by
  by_cases hm : s.mode = .halted
  · rw [cycle_of_halted inp hm] at h
    cases h
    exact hs
  · rw [cycle_of_running inp hm, mapNext_eq_next] at h
    obtain ⟨u, hu, rfl⟩ := h
    have hu' : u.Inv := instrStep_keeps_inv (s := s.setPins inp) (hs.congr rfl rfl rfl rfl) hm hu
    exact hu'.congr (endCycle_mem _ _) (endCycle_pc _ _) (endCycle_mode _ _) (endCycle_err _ _)

/-- A Load that fits starts a run in the invariant, whatever the state was. -/
theorem loadRom_inv {rom : List Byte} {s t : State} (h : loadRom rom s = .ok t) : t.Inv := by
  unfold loadRom at h
  split at h <;> cases h
  exact ⟨wf_loaded _ _ ‹_›, rfl, rfl⟩

/-- Settles O57, by the host's event: a cycle keeps the invariant, a Load sets it up, and RenderAck, a failed Load and
taking the event touch nothing it speaks of. -/
theorem stepKeepsTheInvariant : Obligations.StepKeepsTheInvariant := by
  intro s t hs h
  have hs' : s.takeEvent.Inv :=
    hs.congr s.takeEvent_mem s.takeEvent_pc s.takeEvent_mode s.takeEvent_err
  cases he : s.nextEvent with
  | cycle inp =>
    rw [step_of_cycle he] at h
    exact cycle_keeps_inv hs' h
  | renderAck =>
    rw [step_of_renderAck he] at h
    cases h
    exact hs'.congr rfl rfl rfl rfl
  | load rom =>
    cases hl : loadRom rom s.takeEvent with
    | ok u =>
      rw [step_of_load he hl] at h
      cases h
      exact loadRom_inv hl
    | error e =>
      rw [step_of_load_error he hl] at h
      cases h
      exact hs'
  | shutdown =>
    rw [step_of_shutdown he] at h
    cases h

/-- Settles O58: the memory of `State.reset` lists no cell, and the machine is RUNNING without an error. -/
theorem resetMeetsTheInvariant : Obligations.ResetMeetsTheInvariant := ⟨reset_mem_wf, rfl, rfl⟩

end Sys2Proof.Machine
end

section
/-! SUPPORT. Which registers an instruction writes, and that no instruction reads `st`, `redraw`, `ir`, `mode` or `err`.
The proofs of O51 and O54 stand on this. -/

namespace Sys2Proof.Machine

open Host (Outcome)

/-! ### Registers -/

/-- An operation that writes Vx and the flag leaves every other register alone (41_load_alu.md R120). -/
theorem State.getV_setResultAndFlag_other (s : State) {x r : Nib} (hx : r ≠ x) (hf : r ≠ flagReg) (v f : Byte) :
    (s.setResultAndFlag x v f).getV r = s.getV r := by
  rw [State.getV_setResultAndFlag, if_neg hf, if_neg hx]

/-- Fx65 leaves the registers above `x` alone (42_index_memory.md R146). -/
theorem getElem_loadFrom_above {x r : Nib} (h : x.val < r.val) (m : Memory) (base : Nat) (regs : Vector Byte 16) :
    (loadFrom m base regs (x.val + 1))[r.val] = regs[r.val] := by
  rw [getElem_loadFrom _ _ _ _ _ r.isLt, if_neg (by omega)]

/-- A register that is neither a destination nor written as the flag keeps its value (10_state.md R11, R12). -/
theorem exec_getV_of_not_dest {i : Instr} {s t : State} {r : Nib} (h : exec i s = .next t)
    (hd : i.namesDest r = false) (hf : r = flagReg → i.writesFlag = false) : t.getV r = s.getV r := by
  cases i with
  | ret => obtain ⟨_, rfl⟩ | ⟨-, rfl⟩ := exec_ret_cases h <;> rfl
  | call nnn => obtain ⟨_, rfl⟩ | ⟨-, rfl⟩ := exec_call_cases h <;> rfl
  | ldVxK x =>
    have hx : r ≠ x := (ne_of_beq_false hd).symm
    obtain ⟨k, -, rfl⟩ | ⟨-, rfl⟩ := exec_ldVxK_cases h
    · exact State.getV_setV_other _ hx _
    · rfl
  | ldImm x _ | addImm x _ | rnd x _ | ldVxDT x | ldReg x _ | orReg x _ | andReg x _ | xorReg x _ =>
    have hx : r ≠ x := (ne_of_beq_false hd).symm
    cases h
    exact State.getV_setV_other _ hx _
  | addReg x _ | subReg x _ | shrReg x _ | subnReg x _ | shlReg x _ =>
    have hx : r ≠ x := (ne_of_beq_false hd).symm
    cases h
    exact State.getV_setResultAndFlag_other _ hx (by simpa [Instr.writesFlag] using hf) _ _
  | drw x y n =>
    cases h
    exact State.getV_setV_other _ (by simpa [Instr.writesFlag] using hf) _
  | loadRegs x =>
    have hx : x.val < r.val := by simpa [Instr.namesDest] using hd
    cases h
    exact getElem_loadFrom_above hx _ _ _
  | _ => cases h; rfl

/-- A flag writer leaves a flag in VF (41_load_alu.md R120). -/
theorem exec_flag {i : Instr} {s t : State} (h : exec i s = .next t) (hf : i.writesFlag = true) :
    ∃ b, t.getV flagReg = flagByte b := by
  cases i with
  | addReg | subReg | shrReg | subnReg | shlReg | drw =>
    cases h
    exact ⟨_, State.getV_setV_same _ _ _⟩
  | _ => cases hf

/-- A flag is 0 or 1 (10_state.md R12). -/
theorem flagByte_eq_zero_or_one (b : Bool) : flagByte b = 0 ∨ flagByte b = 1 := by
  cases b
  · exact .inl rfl
  · exact .inr rfl

/-- Settles O51, by what each instruction writes to the registers. -/
theorem registersChangeOnlyAsDestination : Obligations.RegistersChangeOnlyAsDestination := by
  refine fun i s t h => ⟨fun r hd hf => exec_getV_of_not_dest h hd hf, fun hf => ?_⟩
  obtain ⟨b, hb⟩ := exec_flag h hf
  rw [hb]
  exact flagByte_eq_zero_or_one b

/-! ### What no instruction reads -/

/-- The state with `st`, `redraw`, `ir`, `mode` and `err` covered up. -/
def State.visible (s : State) : State := { s with st := 0, redraw := false, ir := 0, mode := .running, err := none }

/-- States that look alike differ at most in `st`, `redraw`, `ir`, `mode` and `err`. -/
theorem sameExcept_of_visible_eq {s t : State} (h : t.visible = s.visible) :
    SameExcept [.st, .redraw, .ir, .mode, .err] s t := by
  simp only [State.visible, State.mk.injEq] at h
  obtain ⟨hmem, hV, hI, hpc, hstack, hsp, hdt, -, hdisp, hkeys, -, -, -, -, hpins, hevents, hdraws⟩ := h
  intro e he
  cases e with
  | mem => exact fun a => by rw [hmem]
  | V => exact fun r => by rw [State.getV_eq, hV, State.getV_eq]
  | st | redraw | ir | mode | err => simp at he
  | _ => assumption

/-- What an instruction leaves visible follows from what is visible before it. -/
theorem exec_visible (i : Instr) (s : State) :
    mapNext State.visible (exec i s) = mapNext State.visible (exec i s.visible) := by
  cases i with
  | ret =>
    by_cases h : 0 < s.sp.val
    · rw [exec_ret_of_saved h, exec_ret_of_saved (s := s.visible) h]
      rfl
    · rw [exec_ret_of_empty h, exec_ret_of_empty (s := s.visible) h]
      rfl
  | call nnn =>
    by_cases h : s.sp.val < 16
    · rw [exec_call_of_room nnn h, exec_call_of_room (s := s.visible) nnn h]
      rfl
    · rw [exec_call_of_full nnn h, exec_call_of_full (s := s.visible) nnn h]
      rfl
  | ldVxK x =>
    cases h : firstKey s.keys with
    | some k =>
      rw [exec_ldVxK_of_key x h, exec_ldVxK_of_key (s := s.visible) x h]
      rfl
    | none =>
      rw [exec_ldVxK_of_no_key x h, exec_ldVxK_of_no_key (s := s.visible) x h]
      rfl
  | _ => rfl

/-- Settles O54: the two states look alike before the instruction, so they look alike after it. -/
theorem noInstructionReadsTheHiddenState : Obligations.NoInstructionReadsTheHiddenState := by
  intro i s a b w m e
  obtain ⟨t, ht⟩ := exec_has_next i s
  obtain ⟨u, hu⟩ := exec_has_next i { s with st := a, redraw := b, ir := w, mode := m, err := e }
  have ht' := exec_visible i s
  have hu' := exec_visible i { s with st := a, redraw := b, ir := w, mode := m, err := e }
  rw [ht] at ht'
  rw [hu] at hu'
  have hvis : u.visible = t.visible := Outcome.next.inj (hu'.trans ht'.symm)
  exact ⟨t, u, ht, hu, sameExcept_of_visible_eq hvis⟩

end Sys2Proof.Machine
end

section
/-! SUPPORT. The elements of `State.reset`, and that a Load that fits gives them to the machine again. The proofs of O19
and O21 stand on this. -/

namespace Sys2Proof.Machine

theorem reset_getV (r : Nib) : State.reset.getV r = 0 := Vector.getElem_replicate _

theorem reset_stack (k : Fin 16) : State.reset.stack[k] = 0 := Vector.getElem_replicate _

theorem reset_getCell (c : Nat) : getCell State.reset.disp c = false := getCell_clearDisplay c

/-- The memory of `State.reset` is the one a Load of the empty image leaves (10_state.md R30). -/
theorem reset_mem : State.reset.mem = ⟨Config.defaultFont, imageCells Config.progBase []⟩ := rfl

/-- The font table of `State.reset` (20_memory.md R55). -/
theorem reset_read_font (k : Nat) (h : k < 80) : State.reset.mem.read k = Config.defaultFont[k] := by
  have hk : k < Config.memSize := Nat.lt_trans h (by decide)
  rw [reset_mem, read_loaded _ _ k hk, dif_pos h]

/-- Above the font the memory of `State.reset` is 0 (70_reset_and_hazards.md R230). -/
theorem reset_read_above (a : Nat) (hlo : 0x050 ≤ a) (hhi : a < 0x1000) : State.reset.mem.read a = 0 := by
  rw [reset_mem, read_loaded _ _ a hhi, dif_neg (Nat.not_lt.mpr hlo)]
  simp

/-- Settles O21, element by element. -/
theorem resetIsAsTheSpecSays : Obligations.ResetIsAsTheSpecSays :=
  ⟨reset_getV, rfl, rfl, rfl, reset_stack, rfl, rfl, fun c _ => reset_getCell c, rfl, rfl, rfl, rfl, rfl, rfl,
    reset_read_font, reset_read_above⟩

/-- A Load of an image that fits succeeds: the state of a new run, with the host's events and draws
(70_reset_and_hazards.md R230). -/
theorem loadRom_of_fits {rom : List Byte} (h : rom.length ≤ Config.romMax) (s : State) :
    loadRom rom s = .ok { loadedState s.mem.font rom with events := s.events, draws := s.draws } := by
  simp [loadRom, romFits, h]

/-- Settles O19: but for its memory, events and draws the loaded state is `State.reset`. -/
theorem loadResetsEveryOtherElement : Obligations.LoadResetsEveryOtherElement := by
  intro rom s h
  refine ⟨_, loadRom_of_fits h s, reset_getV, rfl, rfl, rfl, reset_stack, rfl, rfl, fun c _ => reset_getCell c, rfl,
    rfl, rfl, rfl, rfl, rfl, fun hev => ?_⟩
  have hload := loadRom_of_fits h s.takeEvent
  exact ⟨_, hload, step_of_load hev hload⟩

end Sys2Proof.Machine
end

section
/-! SUPPORT. What a memory that Load made reads in each range of the address map: FONT, the gap below the ROM, and the
program area. The proof of O18 stands on this. -/

namespace Sys2Proof.Machine

/-- The font area (20_memory.md R55). -/
theorem read_loaded_font (font : Vector Byte Config.fontLen) (rom : List Byte) {a : Nat} (h : a < 80) :
    (Memory.mk font (imageCells Config.progBase rom)).read a = font[a] := by
  rw [read_loaded font rom a (Nat.lt_trans h (by decide)), dif_pos h]

/-- The gap between the font and the ROM (70_reset_and_hazards.md R230: "memory zeroed"). -/
theorem read_loaded_gap (font : Vector Byte Config.fontLen) (rom : List Byte) {a : Nat} (hlo : 0x050 ≤ a)
    (hhi : a < 0x200) :
    (Memory.mk font (imageCells Config.progBase rom)).read a = 0#8 := by
  rw [read_loaded font rom a (Nat.lt_trans hhi (by decide)), dif_neg (Nat.not_lt.mpr hlo), if_neg (Nat.not_le.mpr hhi)]

/-- The program area: the image, and 0 behind its end (20_memory.md R56; 70_reset_and_hazards.md R230). -/
theorem read_loaded_program (font : Vector Byte Config.fontLen) (rom : List Byte) {k : Nat} (h : 0x200 + k < 0x1000) :
    (Memory.mk font (imageCells Config.progBase rom)).read (0x200 + k) = rom.getD k 0#8 := by
  have hfont : ¬0x200 + k < Config.fontLen := Nat.not_lt.mpr (Nat.le_trans (by decide) (Nat.le_add_right 0x200 k))
  rw [read_loaded font rom _ h, dif_neg hfont, if_pos (Nat.le_add_right _ k), Nat.add_sub_cancel_left]

/-- Settles O18, by the ranges of the address map. -/
theorem loadPutsTheRomInMemory : Obligations.LoadPutsTheRomInMemory := by
  intro rom s hfits
  refine ⟨_, loadRom_of_fits hfits s, fun k hk => ?_, fun k hk => read_loaded_font _ rom hk,
    fun a hlo hhi => read_loaded_gap _ rom hlo hhi, fun a hlo hhi => ?_⟩
  · exact (read_loaded_program _ rom (by omega)).trans (List.getD_eq_getElem rom 0#8 hk)
  · obtain ⟨k, rfl⟩ := Nat.exists_eq_add_of_le (Nat.le_of_add_right_le hlo)
    exact (read_loaded_program _ rom hhi).trans (List.getD_eq_default rom 0#8 (Nat.le_of_add_le_add_left hlo))

end Sys2Proof.Machine
end

section
/-! SUPPORT. The bytes Fx55 leaves at its addresses, and the word a fetch makes of two neighbouring bytes, both for
addresses that wrap. The proof of O45 stands on this. -/

namespace Sys2Proof.Machine

/-- `256 * hi + lo` fits in 16 bits, so the word is the sum itself (20_memory.md R44). -/
theorem toNat_wordOfBytes (hi lo : Byte) : (wordOfBytes hi lo).toNat = 256 * hi.toNat + lo.toNat := by
  have hhi := hi.isLt
  have hlo := lo.isLt
  exact Nat.mod_eq_of_lt (by omega)

/-- Addresses that are equal mod 4096 read the same byte (20_memory.md R42). -/
theorem Memory.read_congr (m : Memory) {a b : Nat} (h : a % Config.memSize = b % Config.memSize) :
    m.read a = m.read b := by
  rw [← m.read_mod a, h, m.read_mod]

/-- Addresses that are equal mod 4096 read the same word (20_memory.md R42, R44). -/
theorem Memory.readWord_congr (m : Memory) {a b : Nat} (h : a % Config.memSize = b % Config.memSize) :
    m.readWord a = m.readWord b := by
  have hsucc : (a + 1) % Config.memSize = (b + 1) % Config.memSize := Nat.ModEq.add_right 1 h
  simp only [readWord, m.read_congr h, m.read_congr hsucc]

/-- Fx55 leaves each register up to `x` at its own address, also across the wrap of memory (42_index_memory.md R145). -/
theorem read_writeBytes_regsUpTo (m : Memory) (s : State) {x r : Nib} (h : r.val ≤ x.val) :
    (m.writeBytes (s.effAddr 0) (s.regsUpTo x)).read (s.effAddr r.val) = s.getV r := by
  have hr : r.val < (s.regsUpTo x).length := by simpa using Nat.lt_succ_of_le h
  have hlen : (s.regsUpTo x).length ≤ Config.memSize := by
    rw [length_regsUpTo]
    exact Nat.le_trans x.isLt (by decide)
  exact (m.read_writeBytes_inside (s.effAddr 0) r.val _ hr hlen).trans (getElem_regsUpTo s x r.val hr)

/-- Two neighbouring registers that Fx55 leaves are a word, the lower register its high byte (20_memory.md R44). -/
theorem toNat_readWord_writeBytes_regsUpTo (m : Memory) (s : State) {x k : Nib} (h : k.val + 1 ≤ x.val) :
    ((m.writeBytes (s.effAddr 0) (s.regsUpTo x)).readWord (s.effAddr k.val)).toNat =
      256 * (s.getV k).toNat + (s.getV ⟨k.val + 1, Nat.lt_of_le_of_lt h x.isLt⟩).toNat := by
  have hfirst := read_writeBytes_regsUpTo m s (Nat.le_of_succ_le h)
  have hsecond := read_writeBytes_regsUpTo m s (r := ⟨k.val + 1, Nat.lt_of_le_of_lt h x.isLt⟩) h
  rw [← hfirst, ← hsecond]
  exact toNat_wordOfBytes _ _

/-- Settles O45: the fetch address is `I + k` mod 4096, where Fx55 left Vk with Vk+1 behind it. -/
theorem storeIsSeenByTheNextFetch : Obligations.StoreIsSeenByTheNextFetch := by
  intro x s k hk hpc
  refine ⟨_, rfl, ?_⟩
  calc ((s.mem.writeBytes (s.effAddr 0) (s.regsUpTo x)).readWord (s.pc + 2).toNat).toNat
      = ((s.mem.writeBytes (s.effAddr 0) (s.regsUpTo x)).readWord (s.effAddr k.val)).toNat := by
        rw [Memory.readWord_congr _ hpc]
    _ = _ := toNat_readWord_writeBytes_regsUpTo s.mem s hk

end Sys2Proof.Machine
end

section
/-! SUPPORT. The decoder and the encoder are inverse to each other, by the formats of 30_encoding.md R62. The proofs of
O1 and O2 stand on this. -/

namespace Sys2Proof

/-! ### A word is its fields laid out in any format that has its family -/

theorem familyField_lt (w : Word) : familyField w < 16 := bits_lt w 15 12

theorem formatNNN_fields {f : Nat} {w : Word} (hf : familyField w = f) : formatNNN f (nnnField w) = w := by
  subst hf
  have hw := w.isLt
  apply BitVec.eq_of_toNat_eq
  rw [toNat_formatNNN (familyField_lt w)]
  simp only [familyField, nnnField, bits, BitVec.toNat_ofNat]
  omega

theorem formatXKK_fields {f : Nat} {w : Word} (hf : familyField w = f) : formatXKK f (xField w) (kkField w) = w := by
  subst hf
  have hw := w.isLt
  apply BitVec.eq_of_toNat_eq
  rw [toNat_formatXKK (familyField_lt w)]
  simp only [familyField, xField, kkField, bits, BitVec.toNat_ofNat, Fin.val_ofNat]
  omega

theorem formatXYN_fields {f : Nat} {w : Word} (hf : familyField w = f) :
    formatXYN f (xField w) (yField w) (nField w) = w := by
  subst hf
  have hw := w.isLt
  apply BitVec.eq_of_toNat_eq
  rw [toNat_formatXYN (familyField_lt w)]
  simp only [familyField, xField, yField, nField, bits, Fin.val_ofNat]
  omega

/-- Format X: the low byte is fixed. -/
theorem formatXKK_fixed {f : Nat} {w : Word} {kk : Byte} (hf : familyField w = f) (hkk : bits w 7 0 = kk.toNat) :
    formatXKK f (xField w) kk = w := by
  have h : kkField w = kk := by rw [kkField, hkk, BitVec.ofNat_toNat, BitVec.setWidth_eq]
  rw [← h, formatXKK_fields hf]

/-- Format XY: the low nibble is fixed. -/
theorem formatXYN_fixed {f : Nat} {w : Word} {n : Nib} (hf : familyField w = f) (hn : bits w 3 0 = n.val) :
    formatXYN f (xField w) (yField w) n = w := by
  have h : nField w = n := by rw [nField, hn, Fin.ofNat_val_eq_self]
  rw [← h, formatXYN_fields hf]

/-! ### Decode after encode -/

theorem decodeWord_encode (i : Instr) : decodeWord (encode i) = .ok i := by
  cases i with
  | cls | ret => rfl
  | jp | call | ldI | jpV0 => simp [encode, decodeWord, family_formatNNN, nnn_formatNNN]
  | seImm | sneImm | ldImm | addImm | rnd => simp [encode, decodeWord, family_formatXKK, x_formatXKK, kk_formatXKK]
  | drw => simp [encode, decodeWord, family_formatXYN, x_formatXYN, y_formatXYN, n_formatXYN]
  | seReg | sneReg => simp [encode, decodeWord, family_formatXYN, lowNibble_formatXYN, x_formatXYN, y_formatXYN]
  | ldReg | orReg | andReg | xorReg | addReg | subReg | shrReg | subnReg | shlReg =>
    simp [encode, decodeWord, decodeFamily8, family_formatXYN, lowNibble_formatXYN, x_formatXYN, y_formatXYN]
  | skp | sknp => simp [encode, decodeWord, decodeFamilyE, family_formatXKK, lowByte_formatXKK, x_formatXKK]
  | ldVxDT | ldVxK | ldDTVx | ldSTVx | addI | ldF | ldB | storeRegs | loadRegs =>
    simp [encode, decodeWord, decodeFamilyF, family_formatXKK, lowByte_formatXKK, x_formatXKK]

theorem decode_encodeBytes (i : Instr) (rest : List Byte) : decode (encodeBytes i ++ rest) = .ok (i, rest) := by
  simp [encodeBytes, decode, wordOfBytes_highByte_lowByte, decodeWord_encode, Except.map]

/-- Settles O1, by the instruction's format. -/
theorem decodeOfEncodeIsTheInstruction : Obligations.DecodeOfEncodeIsTheInstruction :=
  fun i rest => ⟨decodeWord_encode i, decode_encodeBytes i rest⟩

/-! ### Encode after decode -/

theorem encode_of_decodeFamily0 {w : Word} {i : Instr} (h : decodeFamily0 w = .ok i) : encode i = w := by
  unfold decodeFamily0 at h
  repeat' split at h
  all_goals cases h <;> exact Eq.symm ‹_›

theorem encode_of_decodeFamily8 {w : Word} {i : Instr} (hf : familyField w = 0x8) (h : decodeFamily8 w = .ok i) :
    encode i = w := by
  unfold decodeFamily8 at h
  split at h <;> cases h <;> exact formatXYN_fixed hf ‹_›

theorem encode_of_decodeFamilyE {w : Word} {i : Instr} (hf : familyField w = 0xE) (h : decodeFamilyE w = .ok i) :
    encode i = w := by
  unfold decodeFamilyE at h
  repeat' split at h
  all_goals cases h <;> exact formatXKK_fixed hf ‹_›

theorem encode_of_decodeFamilyF {w : Word} {i : Instr} (hf : familyField w = 0xF) (h : decodeFamilyF w = .ok i) :
    encode i = w := by
  unfold decodeFamilyF at h
  repeat' split at h
  all_goals cases h <;> exact formatXKK_fixed hf ‹_›

theorem encode_of_decodeWord {w : Word} {i : Instr} (h : decodeWord w = .ok i) : encode i = w := by
  unfold decodeWord at h
  split at h
  -- `h_1` to `h_16` are the families 0 to F
  case h_1 => exact encode_of_decodeFamily0 h
  case h_2 hf | h_3 hf | h_11 hf | h_12 hf => cases h; exact formatNNN_fields hf
  case h_4 hf | h_5 hf | h_7 hf | h_8 hf | h_13 hf => cases h; exact formatXKK_fields hf
  case h_6 hf | h_10 hf =>
    split at h <;> cases h
    exact formatXYN_fixed hf ‹_›
  case h_9 hf => exact encode_of_decodeFamily8 hf h
  case h_14 hf => cases h; exact formatXYN_fields hf
  case h_15 hf => exact encode_of_decodeFamilyE hf h
  case h_16 hf => exact encode_of_decodeFamilyF hf h
  case h_17 => cases h

/-- Settles O2, by the word's family. -/
theorem encodeOfDecodeIsTheWord : Obligations.EncodeOfDecodeIsTheWord := fun _ _ => encode_of_decodeWord

end Sys2Proof
end

section
/-! SUPPORT. The decoder's only error is Unknown, and the words of each family that give it (30_encoding.md R66, R70).
The proofs of O3 and O4 stand on this. -/

namespace Sys2Proof

theorem kkField_eq_iff {w : Word} {kk : Byte} : kkField w = kk ↔ bits w 7 0 = kk.toNat := by
  have h := bits_lt w 7 0
  rw [← BitVec.toNat_inj, kkField, BitVec.toNat_ofNat, Nat.mod_eq_of_lt h]

theorem val_nField (w : Word) : (nField w).val = bits w 3 0 := Nat.mod_eq_of_lt (bits_lt w 3 0)

theorem nField_eq_iff {w : Word} {n : Nib} : nField w = n ↔ bits w 3 0 = n.val := by
  rw [← Fin.val_inj, val_nField]

/-! ### The unknown words of a family -/

/-- A comparison whose match is an instruction fails where it has no match and the rest fails. -/
theorem ite_ok_eq_error_iff {c : Prop} [Decidable c] {i : Instr} {d : Except DecodeError Instr} {e : DecodeError} :
    (if c then .ok i else d) = .error e ↔ ¬c ∧ d = .error e := by
  split <;> simp [*]

theorem decodeFamily0_eq_error_iff {w : Word} {e : DecodeError} :
    decodeFamily0 w = .error e ↔ (w ≠ 0x00E0 ∧ w ≠ 0x00EE) ∧ .unknownOpcode w = e := by
  simp [decodeFamily0, ite_ok_eq_error_iff, and_assoc]

theorem decodeFamily8_eq_error_iff {w : Word} {e : DecodeError} :
    decodeFamily8 w = .error e ↔
      (8 ≤ (nField w).val ∧ (nField w).val ≤ 0xD ∨ nField w = 0xF) ∧ .unknownOpcode w = e := by
  have h := bits_lt w 3 0
  rw [val_nField, nField_eq_iff]
  unfold decodeFamily8
  split
  -- the low nibbles that no instruction has
  case h_10 =>
    have hrest : 8 ≤ bits w 3 0 ∧ bits w 3 0 ≤ 0xD ∨ bits w 3 0 = 0xF := by
      simp only [imp_false] at *
      omega
    simp [hrest]
  all_goals simp [*]

theorem decodeFamilyE_eq_error_iff {w : Word} {e : DecodeError} :
    decodeFamilyE w = .error e ↔ kkField w ∉ ([0x9E, 0xA1] : List Byte) ∧ .unknownOpcode w = e := by
  simp [decodeFamilyE, ite_ok_eq_error_iff, kkField_eq_iff, and_assoc]

theorem decodeFamilyF_eq_error_iff {w : Word} {e : DecodeError} :
    decodeFamilyF w = .error e ↔
      kkField w ∉ ([0x07, 0x0A, 0x15, 0x18, 0x1E, 0x29, 0x33, 0x55, 0x65] : List Byte) ∧ .unknownOpcode w = e := by
  simp [decodeFamilyF, ite_ok_eq_error_iff, kkField_eq_iff, and_assoc]

/-! ### The unknown words -/

/-- The illegal words, family by family (30_encoding.md R66). -/
def IllegalByFamily (w : Word) : Prop :=
  (familyField w = 0x0 ∧ w ≠ 0x00E0 ∧ w ≠ 0x00EE) ∨
  (familyField w = 0x5 ∧ nField w ≠ 0) ∨
  (familyField w = 0x8 ∧ (8 ≤ (nField w).val ∧ (nField w).val ≤ 0xD ∨ nField w = 0xF)) ∨
  (familyField w = 0x9 ∧ nField w ≠ 0) ∨
  (familyField w = 0xE ∧ kkField w ∉ ([0x9E, 0xA1] : List Byte)) ∨
  (familyField w = 0xF ∧ kkField w ∉ ([0x07, 0x0A, 0x15, 0x18, 0x1E, 0x29, 0x33, 0x55, 0x65] : List Byte))

theorem decodeWord_eq_error_iff {w : Word} {e : DecodeError} :
    decodeWord w = .error e ↔ IllegalByFamily w ∧ .unknownOpcode w = e := by
  have hlt := familyField_lt w
  unfold IllegalByFamily decodeWord
  split
  -- `h_1` to `h_16` are the families 0 to F
  case h_1 hf => simp [hf, decodeFamily0_eq_error_iff]
  case h_6 hf | h_10 hf => simp [hf, ite_ok_eq_error_iff, nField_eq_iff]
  case h_9 hf => simp [hf, decodeFamily8_eq_error_iff]
  case h_15 hf => simp [hf, decodeFamilyE_eq_error_iff]
  case h_16 hf => simp [hf, decodeFamilyF_eq_error_iff]
  case h_17 =>
    simp only [imp_false] at *
    omega
  all_goals simp [*]

/-- Settles O4: the decoder's only error is Unknown, and the illegal words are those that give it. -/
theorem illegalWordsByFamily : Obligations.IllegalWordsByFamily := by
  intro w
  constructor
  · cases hd : decodeWord w with
    | ok i => exact .inl ⟨i, rfl⟩
    | error e => exact .inr (congrArg _ (decodeWord_eq_error_iff.mp hd).2.symm)
  · exact decodeWord_eq_error_iff.trans (and_iff_left rfl)

end Sys2Proof
end

section
/-! SUPPORT. The words that select a row of the opcode map are the encodings of the row's instruction
(30_encoding.md R65). The proof of O3 stands on this. -/

namespace Sys2Proof

/-! ### A word that selects a row is its fields laid out in the row's format -/

theorem formatFixed_of_selects {p w : Word} (h : (OpcodeRow.mk 0xFFFF p).selects w = true) : p = w :=
  (eq_of_beq h).symm.trans BitVec.and_allOnes

theorem formatNNN_of_selects {f : Nat} (hf : f < 16) {w : Word}
    (h : (OpcodeRow.mk 0xF000 (BitVec.ofNat 16 (4096 * f))).selects w = true) : formatNNN f (nnnField w) = w :=
  formatNNN_fields ((selects_F000 hf w).mp h)

theorem formatXKK_of_selects {f : Nat} (hf : f < 16) {w : Word}
    (h : (OpcodeRow.mk 0xF000 (BitVec.ofNat 16 (4096 * f))).selects w = true) :
    formatXKK f (xField w) (kkField w) = w :=
  formatXKK_fields ((selects_F000 hf w).mp h)

theorem formatXYN_of_selects {f : Nat} (hf : f < 16) {w : Word}
    (h : (OpcodeRow.mk 0xF000 (BitVec.ofNat 16 (4096 * f))).selects w = true) :
    formatXYN f (xField w) (yField w) (nField w) = w :=
  formatXYN_fields ((selects_F000 hf w).mp h)

theorem formatXY_of_selects {f : Nat} (hf : f < 16) {w : Word} {n : Nib}
    (h : (OpcodeRow.mk 0xF00F (BitVec.ofNat 16 (4096 * f + n.val))).selects w = true) :
    formatXYN f (xField w) (yField w) n = w :=
  have ⟨hfam, hn⟩ := (selects_F00F hf n.isLt w).mp h
  formatXYN_fixed hfam hn

theorem formatX_of_selects {f : Nat} (hf : f < 16) {w : Word} {kk : Byte}
    (h : (OpcodeRow.mk 0xF0FF (BitVec.ofNat 16 (4096 * f + kk.toNat))).selects w = true) :
    formatXKK f (xField w) kk = w :=
  have ⟨hfam, hkk⟩ := (selects_F0FF hf kk.isLt w).mp h
  formatXKK_fixed hfam hkk

/-! ### Rows and instructions -/

/-- A word that selects a row is the encoding of the row's instruction with the word's fields as operands. -/
theorem exists_encode_of_selects (w : Word) :
    ∀ r ∈ opcodeRows, r.selects w = true → ∃ i, encode i = w ∧ i.row = r := by
  simp only [opcodeRows, List.cons_append, List.nil_append, List.forall_mem_cons]
  exact ⟨
    fun h => ⟨.cls, formatFixed_of_selects h, rfl⟩,
    fun h => ⟨.ret, formatFixed_of_selects h, rfl⟩,
    fun h => ⟨.jp _, formatNNN_of_selects (by decide) h, rfl⟩,
    fun h => ⟨.call _, formatNNN_of_selects (by decide) h, rfl⟩,
    fun h => ⟨.seImm _ _, formatXKK_of_selects (by decide) h, rfl⟩,
    fun h => ⟨.sneImm _ _, formatXKK_of_selects (by decide) h, rfl⟩,
    fun h => ⟨.seReg _ _, formatXY_of_selects (by decide) h, rfl⟩,
    fun h => ⟨.ldImm _ _, formatXKK_of_selects (by decide) h, rfl⟩,
    fun h => ⟨.addImm _ _, formatXKK_of_selects (by decide) h, rfl⟩,
    fun h => ⟨.ldReg _ _, formatXY_of_selects (by decide) h, rfl⟩,
    fun h => ⟨.orReg _ _, formatXY_of_selects (by decide) h, rfl⟩,
    fun h => ⟨.andReg _ _, formatXY_of_selects (by decide) h, rfl⟩,
    fun h => ⟨.xorReg _ _, formatXY_of_selects (by decide) h, rfl⟩,
    fun h => ⟨.addReg _ _, formatXY_of_selects (by decide) h, rfl⟩,
    fun h => ⟨.subReg _ _, formatXY_of_selects (by decide) h, rfl⟩,
    fun h => ⟨.shrReg _ _, formatXY_of_selects (by decide) h, rfl⟩,
    fun h => ⟨.subnReg _ _, formatXY_of_selects (by decide) h, rfl⟩,
    fun h => ⟨.shlReg _ _, formatXY_of_selects (by decide) h, rfl⟩,
    fun h => ⟨.sneReg _ _, formatXY_of_selects (by decide) h, rfl⟩,
    fun h => ⟨.ldI _, formatNNN_of_selects (by decide) h, rfl⟩,
    fun h => ⟨.jpV0 _, formatNNN_of_selects (by decide) h, rfl⟩,
    fun h => ⟨.rnd _ _, formatXKK_of_selects (by decide) h, rfl⟩,
    fun h => ⟨.drw _ _ _, formatXYN_of_selects (by decide) h, rfl⟩,
    fun h => ⟨.skp _, formatX_of_selects (by decide) h, rfl⟩,
    fun h => ⟨.sknp _, formatX_of_selects (by decide) h, rfl⟩,
    fun h => ⟨.ldVxDT _, formatX_of_selects (by decide) h, rfl⟩,
    fun h => ⟨.ldVxK _, formatX_of_selects (by decide) h, rfl⟩,
    fun h => ⟨.ldDTVx _, formatX_of_selects (by decide) h, rfl⟩,
    fun h => ⟨.ldSTVx _, formatX_of_selects (by decide) h, rfl⟩,
    fun h => ⟨.addI _, formatX_of_selects (by decide) h, rfl⟩,
    fun h => ⟨.ldF _, formatX_of_selects (by decide) h, rfl⟩,
    fun h => ⟨.ldB _, formatX_of_selects (by decide) h, rfl⟩,
    fun h => ⟨.storeRegs _, formatX_of_selects (by decide) h, rfl⟩,
    fun h => ⟨.loadRegs _, formatX_of_selects (by decide) h, rfl⟩, nofun⟩

open Laws.EncodesInRow in
/-- The encoding of an instruction selects its own row: the lemmas of `Laws.EncodesInRow` as one. -/
theorem encode_selects_row : ∀ i, Statement i
  | .cls => cls
  | .ret => ret
  | .jp nnn => jp nnn
  | .call nnn => call nnn
  | .seImm x kk => seImm x kk
  | .sneImm x kk => sneImm x kk
  | .seReg x y => seReg x y
  | .ldImm x kk => ldImm x kk
  | .addImm x kk => addImm x kk
  | .ldReg x y => ldReg x y
  | .orReg x y => orReg x y
  | .andReg x y => andReg x y
  | .xorReg x y => xorReg x y
  | .addReg x y => addReg x y
  | .subReg x y => subReg x y
  | .shrReg x y => shrReg x y
  | .subnReg x y => subnReg x y
  | .shlReg x y => shlReg x y
  | .sneReg x y => sneReg x y
  | .ldI nnn => ldI nnn
  | .jpV0 nnn => jpV0 nnn
  | .rnd x kk => rnd x kk
  | .drw x y n => drw x y n
  | .skp x => skp x
  | .sknp x => sknp x
  | .ldVxDT x => ldVxDT x
  | .ldVxK x => ldVxK x
  | .ldDTVx x => ldDTVx x
  | .ldSTVx x => ldSTVx x
  | .addI x => addI x
  | .ldF x => ldF x
  | .ldB x => ldB x
  | .storeRegs x => storeRegs x
  | .loadRegs x => loadRegs x

theorem wordLegal_encode (i : Instr) : wordLegal (encode i) = true :=
  have ⟨hsel, hmem⟩ := encode_selects_row i
  List.any_eq_true.mpr ⟨i.row, hmem, hsel⟩

/-- Settles O3: a selected word is an encoding, which decodes to its instruction; a word that decodes is one too, and
selects that instruction's row. -/
theorem decodeFollowsTheOpcodeMap : Obligations.DecodeFollowsTheOpcodeMap := by
  intro w
  constructor
  · intro r hr hsel
    obtain ⟨i, rfl, hrow⟩ := exists_encode_of_selects w r hr hsel
    exact ⟨i, decodeWord_encode i, hrow⟩
  · intro hnone
    cases hd : decodeWord w with
    | ok i =>
      have hlegal := wordLegal_encode i
      rw [encode_of_decodeWord hd, hnone] at hlegal
      cases hlegal
    | error e => rw [← (decodeWord_eq_error_iff.mp hd).2]

end Sys2Proof
end

section
/-! SUPPORT. Where each instruction leaves `pc` (30_encoding.md R71). The proof of O52 stands on this. -/

namespace Sys2Proof.Machine

theorem State.skipIf_pc_mem (s : State) (c : Bool) : (s.skipIf c).pc ∈ [s.pc + 2, s.pc + 4] := by
  cases c <;> simp [State.skipIf]

/-- A pressed key shows in `keys` (44_keypad_timers.md R173). -/
theorem keys_ne_zero_of_firstKey {keys : BitVec 16} {k : Nat} (h : firstKey keys = some k) : keys ≠ 0#16 := by
  intro h0
  rw [firstKey_eq_none.mpr h0] at h
  cases h

/-- Settles O52: returns, calls and key waits by their two outcomes, skips by their condition. -/
theorem pcFollowsItsClass : Obligations.PcFollowsItsClass := by
  intro i s t h
  cases i with
  | ret => obtain ⟨hsp, rfl⟩ | ⟨hsp, rfl⟩ := exec_ret_cases h <;> simp [Instr.nextPcs, hsp]
  | call nnn => obtain ⟨hsp, rfl⟩ | ⟨hsp, rfl⟩ := exec_call_cases h <;> simp [Instr.nextPcs, hsp]
  | ldVxK x =>
    obtain ⟨k, hk, rfl⟩ | ⟨hk, rfl⟩ := exec_ldVxK_cases h
    · simp [Instr.nextPcs, keys_ne_zero_of_firstKey hk]
    · simp [Instr.nextPcs, firstKey_eq_none.mp hk]
  | seImm | sneImm | seReg | sneReg | skp | sknp => cases h; exact s.skipIf_pc_mem _
  | _ => cases h; exact List.mem_singleton_self _

end Sys2Proof.Machine
end

section
/-! SUPPORT. The words of the spec's examples (95_test_vectors.md). -/

namespace Sys2Proof

/-- Settles O5: the decoder reads an instruction back from its encoding, and 0x8128 is illegal in family 8. -/
theorem specWordsDecodeAsWritten : Obligations.SpecWordsDecodeAsWritten :=
  ⟨decodeWord_encode .cls, decodeWord_encode .ret, decodeWord_encode (.jp 0x228), decodeWord_encode (.call 0x300),
    decodeWord_encode (.ldImm 0xA 0x05), decodeWord_encode (.addReg 1 2), decodeWord_encode (.ldI 0x2F0),
    decodeWord_encode (.drw 1 2 0xF), decodeWord_encode (.skp 1), decodeWord_encode (.ldVxK 5),
    decodeWord_eq_error_iff.mpr ⟨.inr (.inr (.inl ⟨by decide, .inl (by decide)⟩)), rfl⟩⟩

end Sys2Proof
end

section
/-! SUPPORT. What each instruction leaves unchanged (40_control_flow.md R100). The proof of O50 stands on this. -/

namespace Sys2Proof.Machine

/-- `s` with the listed elements taken from `t`. -/
def State.updateFrom (s t : State) (es : List Elem) : State where
  mem := if .mem ∈ es then t.mem else s.mem
  V := if .V ∈ es then t.V else s.V
  I := if .I ∈ es then t.I else s.I
  pc := if .pc ∈ es then t.pc else s.pc
  stack := if .stack ∈ es then t.stack else s.stack
  sp := if .sp ∈ es then t.sp else s.sp
  dt := if .dt ∈ es then t.dt else s.dt
  st := if .st ∈ es then t.st else s.st
  disp := if .disp ∈ es then t.disp else s.disp
  keys := if .keys ∈ es then t.keys else s.keys
  ir := if .ir ∈ es then t.ir else s.ir
  redraw := if .redraw ∈ es then t.redraw else s.redraw
  mode := if .mode ∈ es then t.mode else s.mode
  err := if .err ∈ es then t.err else s.err
  pins := if .pins ∈ es then t.pins else s.pins
  events := if .events ∈ es then t.events else s.events
  draws := if .draws ∈ es then t.draws else s.draws

/-- A frame, from one equation of states: `t` is `s` but for the listed elements. For an operation the equation holds by
computation. -/
theorem sameExcept_of_updateFrom_eq {es : List Elem} {s t : State} (h : s.updateFrom t es = t) :
    SameExcept es s t := by
  intro e he
  rw [← h]
  cases e with
  | mem => exact fun a => congrArg (fun m : Memory => m.read a) (if_neg he)
  | V => exact fun r => congrArg (fun regs : Vector Byte 16 => regs[r.val]) (if_neg he)
  | _ => exact if_neg he

/-- Settles O50: the next state is the old one but for the instruction's list, in each outcome of a return, a call and a
key wait, and in the one outcome of every other instruction. -/
theorem instructionsWriteOnlyTheirElements : Obligations.InstructionsWriteOnlyTheirElements := by
  refine fun i s t h => sameExcept_of_updateFrom_eq ?_
  cases i with
  | ret => obtain ⟨_, rfl⟩ | ⟨-, rfl⟩ := exec_ret_cases h <;> rfl
  | call nnn => obtain ⟨_, rfl⟩ | ⟨-, rfl⟩ := exec_call_cases h <;> rfl
  | ldVxK x => obtain ⟨k, -, rfl⟩ | ⟨-, rfl⟩ := exec_ldVxK_cases h <;> rfl
  | _ => cases h; rfl

end Sys2Proof.Machine
end

section
/-! SUPPORT. The targets of jumps and skips, and the stack entry that a call saves and a return takes. The proofs of O29
to O33 and O55 stand on this. -/

namespace Sys2Proof.Machine

/-! ### Jumps and skips -/

theorem State.movesPc_setPc (s : State) (v : Word) : MovesPc s (s.setPc v) v :=
  ⟨rfl, sameExcept_of_updateFrom_eq rfl⟩

/-- A skip moves `pc` by its condition and changes nothing else (30_encoding.md R71). -/
theorem State.movesPc_skipIf (s : State) {b : Bool} {c : Prop} [Decidable c] (h : b = true ↔ c) :
    MovesPc s (s.skipIf b) (if c then s.pc + 4 else s.pc + 2) :=
  ⟨if_congr h rfl rfl, sameExcept_of_updateFrom_eq rfl⟩

/-- The sum of an address and a byte fits in 16 bits (92_eei_decisions.md D30). -/
theorem toNat_zextAddr_add_zextByte (nnn : Addr12) (v : Byte) :
    (zextAddr nnn + zextByte v).toNat = nnn.toNat + v.toNat := by
  rw [BitVec.toNat_add, toNat_zextAddr, toNat_zextByte]
  omega

/-- Settles O29: 12 bits extended by zeros keep their value. -/
theorem jumpGoesToNnn : Obligations.JumpGoesToNnn := fun nnn s =>
  ⟨_, rfl, s.movesPc_setPc _, toNat_zextAddr nnn, (toNat_zextAddr nnn).trans_lt nnn.isLt⟩

/-- Settles O30: the sum does not overflow. -/
theorem jumpOffsetAddsV0 : Obligations.JumpOffsetAddsV0 := fun nnn s =>
  ⟨_, rfl, s.movesPc_setPc _, toNat_zextAddr_add_zextByte nnn (s.getV 0)⟩

/-- Settles O33: the four are skips, each by its own condition. -/
theorem compareSkips : Obligations.CompareSkips := fun _ _ _ s =>
  ⟨⟨_, rfl, s.movesPc_skipIf beq_iff_eq⟩, ⟨_, rfl, s.movesPc_skipIf bne_iff_ne⟩,
    ⟨_, rfl, s.movesPc_skipIf beq_iff_eq⟩, ⟨_, rfl, s.movesPc_skipIf bne_iff_ne⟩⟩

/-! ### The call stack -/

/-- A push puts its word where `sp` points (40_control_flow.md R103). -/
theorem State.getElem_push_stack_same (s : State) (v : Word) (h : s.sp.val < 16) :
    (s.push v h).stack[s.sp.val] = v :=
  Vector.getElem_set_self _

/-- A push leaves every other entry alone (40_control_flow.md R103). -/
theorem State.getElem_push_stack_other (s : State) (v : Word) (h : s.sp.val < 16) {k : Fin 16} (hk : k.val ≠ s.sp.val) :
    (s.push v h).stack[k] = s.stack[k] :=
  Vector.getElem_set_ne h _ hk.symm

/-- The top entry is the one just below `sp` (40_control_flow.md R101). -/
theorem State.top_eq_getElem {s : State} {k : Nat} (hsp : s.sp.val = k + 1) (h : 0 < s.sp.val) (hk : k < 16) :
    s.top h = s.stack[k] := by
  simp [State.top, hsp]

/-- Settles O31, by whether the stack has room. -/
theorem callSavesItsOwnAddress : Obligations.CallSavesItsOwnAddress := by
  refine fun nnn s => ⟨fun h => ⟨_, exec_call_of_room nnn h, ?_, ?_, rfl, toNat_zextAddr nnn, ?_⟩, fun hfull => ?_⟩
  · exact s.getElem_push_stack_same s.pc h
  · exact fun k hk => s.getElem_push_stack_other s.pc h hk
  · exact sameExcept_of_updateFrom_eq rfl
  · exact exec_call_of_full nnn (by omega)

/-- Settles O32, by whether an entry is saved. -/
theorem returnGoesTwoPastTheEntry : Obligations.ReturnGoesTwoPastTheEntry := by
  refine fun s => ⟨fun k hk => ?_, fun hempty => exec_ret_of_empty (by omega)⟩
  have hsp : 0 < s.sp.val := by omega
  refine ⟨_, exec_ret_of_saved hsp, ?_, ?_, sameExcept_of_updateFrom_eq rfl⟩
  · rw [State.setPc_pc, State.top_eq_getElem hk hsp k.isLt, BitVec.toNat_add]
    rfl
  · exact Nat.sub_eq_of_eq_add hk

/-- Settles O55: the callee's `sp` is one above the caller's, so the entry the call saved is the top one. -/
theorem callReturnRoundTrip : Obligations.CallReturnRoundTrip := by
  refine fun nnn s h => ⟨_, exec_call_of_room nnn h, fun u hsp hentry => ?_⟩
  have hsp' : u.sp.val = s.sp.val + 1 := congrArg Fin.val hsp
  have hpos : 0 < u.sp.val := by omega
  have htop : u.top hpos = s.pc := by
    rw [State.top_eq_getElem hsp' hpos h, hentry]
    exact s.getElem_push_stack_same s.pc h
  refine ⟨_, exec_ret_of_saved hpos, ?_, Fin.ext (Nat.sub_eq_of_eq_add hsp')⟩
  rw [State.setPc_pc, htop]

end Sys2Proof.Machine
end

section
/-! SUPPORT. What an instruction that writes a register, with or without the flag, leaves behind, and each operation's
result and flag as natural numbers (41_load_alu.md R120, R133). The proofs of O22 to O28 stand on this. -/

namespace Sys2Proof.Machine

/-! ### The next state -/

/-- The frame of an instruction without a flag; it does not set VF apart from the other registers. -/
theorem State.writesReg_setV (s : State) (x : Nib) (v : Byte) : WritesReg s (s.setV x v).advance x v :=
  ⟨s.getV_setV_same x v, fun _ hr => s.getV_setV_other hr v, rfl, sameExcept_of_updateFrom_eq rfl⟩

/-- The frame of an instruction with a flag. VF is written last, so it holds the flag also when `x` is VF
(41_load_alu.md R120; 92_eei_decisions.md D4). -/
theorem State.writesRegAndFlag_setResultAndFlag (s : State) (x : Nib) (v f : Byte) :
    WritesRegAndFlag s (s.setResultAndFlag x v f).advance x v f := by
  refine ⟨?_, fun hx => ?_, fun r hx hf => ?_, rfl, sameExcept_of_updateFrom_eq rfl⟩
  · exact (s.setV x v).getV_setV_same flagReg f
  · exact ((s.setV x v).getV_setV_other hx f).trans (s.getV_setV_same x v)
  · exact s.getV_setResultAndFlag_other hx hf v f

/-- The value an instruction writes to Vx, given by its bits. -/
theorem WritesReg.getV_bits {s t : State} {x : Nib} {v : Byte} {bit : Nat → Bool} (h : WritesReg s t x v)
    (hbit : ∀ k, v.getLsbD k = bit k) :
    WritesReg s t x (t.getV x) ∧ ∀ k, k < 8 → (t.getV x).getLsbD k = bit k := by
  obtain rfl : t.getV x = v := h.1
  exact ⟨h, fun k _ => hbit k⟩

/-! ### Results -/

theorem add_eq_ofNat (a b : Byte) : a + b = BitVec.ofNat 8 ((a.toNat + b.toNat) % 256) := by bv_omega

theorem sub_eq_ofNat (a b : Byte) : a - b = BitVec.ofNat 8 ((a.toNat + 256 - b.toNat) % 256) := by bv_omega

theorem shiftRight_one_eq_ofNat (a : Byte) : a >>> 1 = BitVec.ofNat 8 (a.toNat / 2) := by bv_omega

theorem shiftLeft_one_eq_ofNat (a : Byte) : a <<< 1 = BitVec.ofNat 8 (2 * a.toNat % 256) := by bv_omega

/-! ### Flags -/

theorem flagByte_decide (p : Prop) [Decidable p] : flagByte (decide p) = if p then 1 else 0 := by
  simp only [flagByte, decide_eq_true_eq]

/-- The flag of a bit is that binary digit of the byte. -/
theorem flagByte_getLsbD (a : Byte) (k : Nat) : flagByte (a.getLsbD k) = BitVec.ofNat 8 (a.toNat / 2 ^ k % 2) := by
  rw [BitVec.getLsbD, Nat.testBit_eq_decide_div_mod_eq, flagByte_decide]
  obtain h | h := Nat.mod_two_eq_zero_or_one (a.toNat / 2 ^ k) <;> simp [h]

theorem shiftedOutLow_eq_ofNat (a : Byte) : shiftedOutLow a = BitVec.ofNat 8 (a.toNat % 2) := by
  rw [shiftedOutLow, flagByte_getLsbD, pow_zero, Nat.div_one]

/-- Bit 7 is the topmost digit of a byte, so nothing stands above it. -/
theorem shiftedOutHigh_eq_ofNat (a : Byte) : shiftedOutHigh a = BitVec.ofNat 8 (a.toNat / 128) := by
  have htop : a.toNat / 128 < 2 := by omega
  exact (flagByte_getLsbD a 7).trans (congrArg _ (Nat.mod_eq_of_lt htop))

/-! ### The obligations -/

/-- Settles O22, by the frame of an instruction without a flag. -/
theorem loadImmediateWritesVx : Obligations.LoadImmediateWritesVx := fun x kk s => ⟨_, rfl, s.writesReg_setV x kk⟩

/-- Settles O23: the sum of two bytes is the sum mod 256. -/
theorem addImmediateWrapsWithoutFlag : Obligations.AddImmediateWrapsWithoutFlag := by
  intro x kk s
  rw [← add_eq_ofNat]
  exact ⟨_, rfl, s.writesReg_setV x _⟩

/-- Settles O24: one frame for the four, and the bits of each logic operation. -/
theorem moveAndLogicWriteVxOnly : Obligations.MoveAndLogicWriteVxOnly := fun x y s =>
  ⟨⟨_, rfl, s.writesReg_setV x (s.getV y)⟩,
    ⟨_, rfl, (s.writesReg_setV x _).getV_bits fun _ => BitVec.getLsbD_or⟩,
    ⟨_, rfl, (s.writesReg_setV x _).getV_bits fun _ => BitVec.getLsbD_and⟩,
    ⟨_, rfl, (s.writesReg_setV x _).getV_bits fun _ => BitVec.getLsbD_xor⟩⟩

/-- Settles O25, by the frame of an instruction with a flag. -/
theorem addSetsTheCarry : Obligations.AddSetsTheCarry := by
  intro x y s
  rw [← add_eq_ofNat, ← flagByte_decide]
  exact ⟨_, rfl, s.writesRegAndFlag_setResultAndFlag x _ _⟩

/-- Settles O26: the two differ only in which operand is the minuend. -/
theorem subtractsSetTheStrictFlag : Obligations.SubtractsSetTheStrictFlag := by
  intro x y s
  simp only [← sub_eq_ofNat, ← flagByte_decide]
  exact ⟨⟨_, rfl, s.writesRegAndFlag_setResultAndFlag x _ _⟩, ⟨_, rfl, s.writesRegAndFlag_setResultAndFlag x _ _⟩⟩

/-- Settles O27: a shift by one halves or doubles Vy, and the bit it drops is Vy's lowest or highest digit. -/
theorem shiftsReadVy : Obligations.ShiftsReadVy := by
  intro x y s
  rw [← shiftRight_one_eq_ofNat, ← shiftedOutLow_eq_ofNat, ← shiftLeft_one_eq_ofNat, ← shiftedOutHigh_eq_ofNat]
  exact ⟨⟨_, rfl, s.writesRegAndFlag_setResultAndFlag x _ _⟩, ⟨_, rfl, s.writesRegAndFlag_setResultAndFlag x _ _⟩⟩

/-- Settles O28: the value written is the AND of the cycle's input and kk. -/
theorem randomIsMaskedByKk : Obligations.RandomIsMaskedByKk := fun x _ s =>
  ⟨_, rfl, (s.writesReg_setV x _).getV_bits fun _ => BitVec.getLsbD_and⟩

end Sys2Proof.Machine
end

section
/-! SUPPORT. The values that reach I, the digits Fx33 stores, and the registers Fx65 loads, both at addresses that wrap
(42_index_memory.md R140). The proofs of O39 to O44 stand on this. -/

namespace Sys2Proof.Machine

/-! ### The index register -/

/-- The sum wraps at 16 bits (42_index_memory.md R142). -/
theorem toNat_add_zextByte (w : Word) (v : Byte) : (w + zextByte v).toNat = (w.toNat + v.toNat) % 65536 := by
  rw [BitVec.toNat_add, toNat_zextByte]

/-- The address of an access depends on no element but I. -/
theorem State.effAddr_congr {s t : State} (h : t.I = s.I) (k : Nat) : t.effAddr k = s.effAddr k :=
  congrArg (fun w : Word => w.toNat + k) h

/-- Settles O39: 12 bits extended by zeros keep their value, and a sum of words is taken mod 65536. -/
theorem indexLoadAndAdd : Obligations.IndexLoadAndAdd := by
  refine ⟨fun nnn s => ⟨_, rfl, ?_, ?_, rfl, ?_⟩, fun x s => ⟨_, rfl, ?_, rfl, ?_⟩⟩
  · exact toNat_zextAddr nnn
  · exact (toNat_zextAddr nnn).trans_lt nnn.isLt
  · exact sameExcept_of_updateFrom_eq rfl
  · exact toNat_add_zextByte s.I (s.getV x)
  · exact sameExcept_of_updateFrom_eq rfl

/-- Settles O40: five times a byte fits in 16 bits. -/
theorem fontAddressIsFiveTimesVx : Obligations.FontAddressIsFiveTimesVx := fun x s =>
  ⟨_, rfl, toNat_glyphAddr (s.getV x), rfl, sameExcept_of_updateFrom_eq rfl⟩

/-! ### Stores -/

/-- Fx33 leaves each digit at its own address, also across the wrap of memory (42_index_memory.md R144). -/
theorem read_writeBytes_bcdDigits (m : Memory) (s : State) (v : Byte) {k : Nat} (h : k < (bcdDigits v).length) :
    (m.writeBytes (s.effAddr 0) (bcdDigits v)).read (s.effAddr k) = (bcdDigits v)[k] :=
  m.read_writeBytes_inside (s.effAddr 0) k (bcdDigits v) h (Nat.le_of_ble_eq_true rfl)

/-- Each digit fits in a byte (42_index_memory.md R144). -/
theorem map_toNat_bcdDigits (v : Byte) :
    (bcdDigits v).map BitVec.toNat = [v.toNat / 100, v.toNat / 10 % 10, v.toNat % 10] := by
  have hv := v.isLt
  simp only [bcdDigits, List.map_cons, List.map_nil, BitVec.toNat_ofNat, List.cons.injEq, and_true]
  omega

/-- What Fx33 leaves at `I + k`, as a natural number. -/
theorem toNat_read_writeBytes_bcdDigits (m : Memory) (s : State) (v : Byte) {k : Nat} (h : k < 3) :
    ((m.writeBytes (s.effAddr 0) (bcdDigits v)).read (s.effAddr k)).toNat =
      [v.toNat / 100, v.toNat / 10 % 10, v.toNat % 10][k] := by
  calc ((m.writeBytes (s.effAddr 0) (bcdDigits v)).read (s.effAddr k)).toNat
      = (bcdDigits v)[k].toNat := congrArg BitVec.toNat (read_writeBytes_bcdDigits m s v h)
    _ = ((bcdDigits v).map BitVec.toNat)[k] := (List.getElem_map BitVec.toNat).symm
    _ = _ := by simp only [map_toNat_bcdDigits]

/-- Settles O41: a run of three byte writes, the bytes being the digits. -/
theorem bcdStoresThreeDigits : Obligations.BcdStoresThreeDigits := by
  refine fun x s => ⟨_, rfl, ?hundreds, ?tens, ?ones, fun a ha => ?others, rfl, sameExcept_of_updateFrom_eq rfl⟩
  case hundreds => exact toNat_read_writeBytes_bcdDigits s.mem s (s.getV x) (k := 0) (by decide)
  case tens => exact toNat_read_writeBytes_bcdDigits s.mem s (s.getV x) (k := 1) (by decide)
  case ones => exact toNat_read_writeBytes_bcdDigits s.mem s (s.getV x) (k := 2) (by decide)
  case others => exact s.mem.read_writeBytes_outside (s.effAddr 0) a _ ha

/-- Settles O42: a run of x + 1 byte writes, the bytes being the registers in order. -/
theorem storeRegistersWritesTheRange : Obligations.StoreRegistersWritesTheRange := by
  refine fun x s => ⟨_, rfl, fun r hr => ?stored, fun a ha => ?others, rfl, sameExcept_of_updateFrom_eq rfl⟩
  case stored => exact read_writeBytes_regsUpTo s.mem s hr
  case others =>
    refine s.mem.read_writeBytes_outside (s.effAddr 0) a _ fun k hk => ha k ?_
    rw [length_regsUpTo] at hk
    exact Nat.le_of_lt_succ hk

/-! ### Loads -/

/-- Settles O43: the loop of loads reaches the registers up to x and no other. -/
theorem loadRegistersReadsTheRange : Obligations.LoadRegistersReadsTheRange := by
  refine fun x s => ⟨_, rfl, fun r hr => ?loaded, fun r hr => ?kept, rfl, sameExcept_of_updateFrom_eq rfl⟩
  all_goals refine (getElem_loadFrom s.mem (s.effAddr 0) s.V (x.val + 1) r.val r.isLt).trans ?_
  case loaded => exact if_pos (Nat.lt_succ_of_le hr)
  case kept => exact if_neg (Nat.not_lt_of_le hr)

/-- Settles O44: Fx55 leaves I alone, so Fx65 reads the addresses that Fx55 wrote. -/
theorem storeThenLoadRestoresTheRegisters : Obligations.StoreThenLoadRestoresTheRegisters := by
  intro x s regs
  obtain ⟨t, ht, hstored, -, -, hframe⟩ := storeRegistersWritesTheRange x s
  obtain ⟨u, hu, hloaded, hkept, -, -⟩ := loadRegistersReadsTheRange x { t with V := regs }
  have hI : t.I = s.I := hframe .I (by decide)
  refine ⟨t, u, ht, hu, fun r hr => ?_, hkept⟩
  calc u.getV r
      = t.mem.read (t.effAddr r.val) := hloaded r hr
    _ = t.mem.read (s.effAddr r.val) := by rw [State.effAddr_congr hI]
    _ = s.getV r := hstored r hr

end Sys2Proof.Machine
end

section
/-! SUPPORT. What the two display instructions do to the display and the flag, and that no other instruction writes the
display or reads it (43_display.md). The proofs of O46 to O49 stand on this. -/

namespace Sys2Proof.Machine

/-- Settles O46: the new display is the one with no cell lit. -/
theorem clearDarkensEveryCell : Obligations.ClearDarkensEveryCell := fun _ =>
  ⟨_, rfl, fun c _ => getCell_clearDisplay c, rfl, rfl, sameExcept_of_updateFrom_eq rfl⟩

/-! ### One draw -/

theorem flagByte_eq_one_iff {b : Bool} : flagByte b = 1 ↔ b = true := by
  cases b <;> decide

/-- Settles O47, by the closed form of the blit; VF holds its collision flag. -/
theorem drawTogglesTheCoveredCells : Obligations.DrawTogglesTheCoveredCells := by
  intro x y n s
  obtain ⟨hcells, hlit⟩ :=
    drawSprite_spec s.mem s.I.toNat (s.getV x).toNat (s.getV y).toNat (n := n.val) (by omega) s.disp
  refine ⟨_, rfl, hcells, ?range, ?lit, fun r hr => ?others, rfl, rfl, sameExcept_of_updateFrom_eq rfl⟩
  all_goals rw [State.advance, State.setPc_getV]
  case range =>
    rw [State.getV_setV_same]
    exact flagByte_eq_zero_or_one _
  case lit =>
    rw [State.getV_setV_same]
    exact flagByte_eq_one_iff.trans hlit
  case others => exact State.getV_setV_other _ hr _

/-! ### Two draws -/

theorem SpriteCovers.lt {m : Memory} {base vx vy n c : Nat} (h : SpriteCovers m base vx vy n c) : c < 2048 :=
  spriteCells_lt (mem_spriteCells.mpr h)

/-- Memories that read alike hold the same sprite. -/
theorem spriteCovers_congr {m m' : Memory} (h : ∀ a, m'.read a = m.read a) {base vx vy n c : Nat} :
    SpriteCovers m' base vx vy n c ↔ SpriteCovers m base vx vy n c := by
  simp only [SpriteCovers, h]

/-- Settles O48: the first draw leaves memory, I, Vx and Vy alone, so the second toggles the same cells, and a covered
cell is lit between the two exactly when the first turned it on. -/
theorem drawTwiceRestoresTheDisplay : Obligations.DrawTwiceRestoresTheDisplay := by
  intro x y n s hx hy
  obtain ⟨t, ht, hfirst, -, -, hregs, -, -, hframe⟩ := drawTogglesTheCoveredCells x y n s
  obtain ⟨u, hu, hsecond, -, hflag, -⟩ := drawTogglesTheCoveredCells x y n t
  have hmem : ∀ a, t.mem.read a = s.mem.read a := hframe .mem (by decide)
  have hI : t.I = s.I := hframe .I (by decide)
  simp only [spriteCovers_congr hmem, hI, hregs x hx, hregs y hy] at hsecond hflag
  refine ⟨t, u, ht, hu, display_ext fun c hc => ?_, hflag.trans (exists_congr fun c => ⟨?_, ?_⟩)⟩
  · by_cases hcov : SpriteCovers s.mem s.I.toNat (s.getV x).toNat (s.getV y).toNat n.val c
    · rw [(hsecond c hc).1 hcov, (hfirst c hc).1 hcov, Bool.not_not]
    · rw [(hsecond c hc).2 hcov, (hfirst c hc).2 hcov]
  · rintro ⟨hcov, hlit⟩
    have htoggled := (hfirst c hcov.lt).1 hcov
    exact ⟨hcov.lt, by simpa [hlit] using htoggled, hlit⟩
  · rintro ⟨hc, hdark, hlit⟩
    refine ⟨by_contra fun hcov => ?_, hlit⟩
    have hkept := (hfirst c hc).2 hcov
    simp [hdark, hlit] at hkept

/-! ### Every other instruction -/

theorem disp_not_mem_writes {i : Instr} (hcls : i ≠ .cls) (hdrw : ∀ x y n, i ≠ .drw x y n) : .disp ∉ i.writes := by
  cases i with
  | cls => exact absurd rfl hcls
  | drw x y n => exact absurd rfl (hdrw x y n)
  | _ => simp [Instr.writes]

/-- Any instruction but Dxyn, run with another display, ends in the same state but for the display. -/
theorem exec_with_disp {i : Instr} {s t : State} (hdrw : ∀ x y n, i ≠ .drw x y n) (h : exec i s = .next t)
    (d : Display) : ∃ e, exec i { s with disp := d } = .next { t with disp := e } := by
  cases i with
  | drw x y n => exact absurd rfl (hdrw x y n)
  | ret =>
    obtain ⟨hsp, rfl⟩ | ⟨hsp, rfl⟩ := exec_ret_cases h
    · exact ⟨d, exec_ret_of_saved (s := { s with disp := d }) hsp⟩
    · exact ⟨d, exec_ret_of_empty (s := { s with disp := d }) hsp⟩
  | call nnn =>
    obtain ⟨hsp, rfl⟩ | ⟨hsp, rfl⟩ := exec_call_cases h
    · exact ⟨d, exec_call_of_room (s := { s with disp := d }) nnn hsp⟩
    · exact ⟨d, exec_call_of_full (s := { s with disp := d }) nnn hsp⟩
  | ldVxK x =>
    obtain ⟨k, hk, rfl⟩ | ⟨hk, rfl⟩ := exec_ldVxK_cases h
    · exact ⟨d, exec_ldVxK_of_key (s := { s with disp := d }) x hk⟩
    · exact ⟨d, exec_ldVxK_of_no_key (s := { s with disp := d }) x hk⟩
  | _ => cases h; exact ⟨_, rfl⟩

/-- Dxyn, run with another display, ends in the same state but for the display and VF. -/
theorem exec_drw_with_disp (x y n : Nib) (s : State) (d : Display) : ∃ t u,
    exec (.drw x y n) s = .next t ∧ exec (.drw x y n) { s with disp := d } = .next u ∧
      (∀ r, r ≠ 15 → u.getV r = t.getV r) ∧ SameExcept [.disp, .V] t u := by
  refine ⟨_, _, rfl, rfl, fun r hr => ?_, sameExcept_of_updateFrom_eq rfl⟩
  exact (State.getV_setV_other _ hr _).trans (State.getV_setV_other _ hr _).symm

/-- Settles O49: the display is written by no instruction that does not list it, and read by none but Dxyn. -/
theorem displayIsWrittenByNothingElse : Obligations.DisplayIsWrittenByNothingElse := by
  refine ⟨fun i s t hcls hdrw h => ?_, fun _ _ => ⟨rfl, rfl, rfl⟩, fun i s d => ?_⟩
  · exact instructionsWriteOnlyTheirElements i s t h .disp (disp_not_mem_writes hcls hdrw)
  · by_cases hdrw : ∀ x y n, i ≠ .drw x y n
    · obtain ⟨t, ht⟩ := exec_has_next i s
      obtain ⟨e, hu⟩ := exec_with_disp hdrw ht d
      exact ⟨t, _, ht, hu, fun _ _ => rfl, sameExcept_of_updateFrom_eq rfl, fun _ => rfl⟩
    · push Not at hdrw
      obtain ⟨x, y, n, rfl⟩ := hdrw
      obtain ⟨t, u, ht, hu, hregs, hframe⟩ := exec_drw_with_disp x y n s d
      exact ⟨t, u, ht, hu, hregs, hframe, fun h => absurd rfl (h x y n)⟩

end Sys2Proof.Machine
end

section
/-! SUPPORT. The key instructions through the least pressed key, the timer instructions, and which instructions change
`mode` (44_keypad_timers.md R170 to R177). The proofs of O34 to O38 and O53 stand on this. -/

namespace Sys2Proof.Machine

/-! ### Mode -/

/-- Settles O53, by the two outcomes of a key wait, a call and a return; no other instruction writes `mode`. -/
theorem onlyKeyWaitAndErrorsChangeMode : Obligations.OnlyKeyWaitAndErrorsChangeMode := by
  intro i s t h
  cases i with
  | ldVxK x =>
    refine .inr (.inl ⟨⟨x, rfl⟩, ?_⟩)
    obtain ⟨k, -, rfl⟩ | ⟨-, rfl⟩ := exec_ldVxK_cases h
    · exact .inl ⟨rfl, rfl⟩
    · exact .inr ⟨rfl, rfl⟩
  | call nnn =>
    obtain ⟨_, rfl⟩ | ⟨hfull, rfl⟩ := exec_call_cases h
    · exact .inl rfl
    · exact .inr (.inr (.inl ⟨⟨nnn, rfl⟩, by omega, rfl, rfl⟩))
  | ret =>
    obtain ⟨_, rfl⟩ | ⟨hempty, rfl⟩ := exec_ret_cases h
    · exact .inl rfl
    · exact .inr (.inr (.inr ⟨rfl, by omega, rfl, rfl⟩))
  | _ => cases h; exact .inl rfl

/-! ### Keys -/

/-- Settles O34: both are skips by the flag of the selected key, the second by its absence. -/
theorem keySkips : Obligations.KeySkips := fun _ s =>
  ⟨⟨_, rfl, s.movesPc_skipIf Iff.rfl⟩, ⟨_, rfl, s.movesPc_skipIf (Bool.not_eq_true' _).to_iff⟩⟩

/-- The cleared key reads as released (44_keypad_timers.md R173). -/
theorem getLsbD_clearKey_same (keys : BitVec 16) {k : Nat} (hk : k < 16) : (clearKey keys k).getLsbD k = false := by
  rw [getLsbD_clearKey keys hk, decide_eq_false (not_not_intro rfl), Bool.and_false]

/-- Every other key keeps its flag (44_keypad_timers.md R173). -/
theorem getLsbD_clearKey_other (keys : BitVec 16) {k j : Nat} (hj : j < 16) (h : j ≠ k) :
    (clearKey keys k).getLsbD j = keys.getLsbD j := by
  rw [getLsbD_clearKey keys hj, decide_eq_true h, Bool.and_true]

/-- A key's index fits in a byte (44_keypad_timers.md R173). -/
theorem toNat_ofNat_nib (k : Nib) : (BitVec.ofNat 8 k.val).toNat = k.val :=
  Nat.mod_eq_of_lt (by omega)

/-- Settles O35: the key the wait takes is the least pressed one. -/
theorem keyWaitTakesTheLowestKey : Obligations.KeyWaitTakesTheLowestKey := by
  intro x k s hdown hleast
  have hfirst : firstKey s.keys = some k.val := firstKey_eq_some.mpr ⟨k.isLt, hdown, hleast⟩
  refine ⟨_, exec_ldVxK_of_key x hfirst, ?index, fun r hr => ?others, ?cleared, fun j hj hne => ?kept, rfl, rfl,
    sameExcept_of_updateFrom_eq rfl⟩
  case index => exact (congrArg BitVec.toNat (s.getV_setV_same x _)).trans (toNat_ofNat_nib k)
  case others => exact s.getV_setV_other hr _
  case cleared => exact getLsbD_clearKey_same s.keys k.isLt
  case kept => exact getLsbD_clearKey_other s.keys hj hne

/-- No key is taken when all 16 flags are 0. -/
theorem firstKey_eq_none_of_all_up {keys : BitVec 16} (h : ∀ k, k < 16 → keys.getLsbD k = false) :
    firstKey keys = none :=
  firstKey_eq_none.mpr (BitVec.eq_of_getLsbD_eq fun k hk => by rw [h k hk, BitVec.getLsbD_zero])

/-- Settles O36, by the wait's outcome without a key. -/
theorem keyWaitHoldsPc : Obligations.KeyWaitHoldsPc := fun x _ hup =>
  exec_ldVxK_of_no_key x (firstKey_eq_none_of_all_up hup)

/-! ### Timers -/

/-- Settles O37, by the frame of an instruction without a flag; its list holds no timer. -/
theorem readDelayTimer : Obligations.ReadDelayTimer := fun x s => ⟨_, rfl, s.writesReg_setV x s.dt⟩

/-- Settles O38: each writes its own timer and advances. -/
theorem setTimers : Obligations.SetTimers := fun _ _ =>
  ⟨⟨_, rfl, rfl, rfl, sameExcept_of_updateFrom_eq rfl⟩, ⟨_, rfl, rfl, rfl, sameExcept_of_updateFrom_eq rfl⟩⟩

end Sys2Proof.Machine
end

section
/-! SUPPORT. What a step does by the host's event and the word at `pc`: the phases of a cycle, the errors that end it,
and that Shutdown alone has no next state. The proofs of O6 to O10, O12 and O16 stand on this. -/

namespace Sys2Proof.Machine

open Host (Outcome)

/-! ### Taking the host's event -/

/-- Taking an event writes the host's own fields, and `redraw` where the host acknowledges the frame (log 3). -/
theorem State.updateFrom_takeEvent (s : State) :
    s.updateFrom s.takeEvent [.redraw, .events, .draws] = s.takeEvent := by
  unfold State.takeEvent
  split <;> rfl

/-- A RenderAck is the oldest scripted event, for the event of an empty list is a cycle (log 4). -/
theorem takeEvent_of_renderAck {s : State} (h : s.nextEvent = .renderAck) :
    s.takeEvent = { s with events := s.events.tail } := by
  unfold State.nextEvent at h
  unfold State.takeEvent
  cases hev : s.events with
  | nil => rw [hev] at h; cases h
  | cons e es => rfl

/-- Settles O16: taking a scripted event drops it from the list, and RenderAck writes `redraw`. -/
theorem renderAckClearsRedrawOnly : Obligations.RenderAckClearsRedrawOnly := by
  intro s hev
  refine ⟨_, step_of_renderAck hev, rfl, ?_⟩
  rw [takeEvent_of_renderAck hev]
  exact ⟨rfl, sameExcept_of_updateFrom_eq rfl⟩

/-! ### The phases of a cycle -/

/-- Unless the machine is halted, a cycle takes the event, latches the inputs, and runs the instruction step and the
rest of the cycle (60_exceptions.md R211). -/
theorem step_of_running_cycle {s : State} {inp : CycleInputs} (hrun : s.mode ≠ .halted)
    (hev : s.nextEvent = .cycle inp) :
    step s = mapNext (State.endCycle inp) (instrStep (s.takeEvent.setPins inp)) := by
  rw [step_of_cycle hev, cycle_of_running inp (by rwa [s.takeEvent_mode])]

/-- The word a cycle fetches is the one at `pc` before the event was taken. -/
theorem fetchWord_takeEvent_setPins (s : State) (inp : CycleInputs) :
    (s.takeEvent.setPins inp).fetchWord = s.fetchWord := by
  rw [State.setPins_fetchWord, State.takeEvent_fetchWord]

/-- An error ends its cycle: no key is sampled and no timer ticks (60_exceptions.md R207). -/
theorem mapNext_endCycle_raise (inp : CycleInputs) (s : State) (e : ExecError) :
    mapNext (State.endCycle inp) (.next (s.raise e)) = .next (s.raise e) :=
  congrArg Outcome.next (endCycle_of_halted inp (s.raise_mode e))

/-- A cycle executes the instruction at `pc` with the inputs latched and `ir` written (60_exceptions.md R219). -/
theorem step_of_decoded {s : State} {inp : CycleInputs} {i : Instr} (hrun : s.mode ≠ .halted)
    (hev : s.nextEvent = .cycle inp) (hd : decodeWord s.fetchWord = .ok i) :
    step s = mapNext (State.endCycle inp) (exec i ((s.takeEvent.setPins inp).setIr s.fetchWord)) := by
  rw [← fetchWord_takeEvent_setPins s inp] at hd ⊢
  rw [step_of_running_cycle hrun hev, instrStep_of_ok hd]

/-- Settles O6, by the phases of the cycle. -/
theorem stepRunsTheDecodedInstruction : Obligations.StepRunsTheDecodedInstruction :=
  fun _ _ _ => step_of_decoded

/-- Settles O7: the instruction step raises, and the error ends the cycle. -/
theorem unknownWordHaltsTheMachine : Obligations.UnknownWordHaltsTheMachine := by
  intro s inp e hrun hev hd
  rw [← fetchWord_takeEvent_setPins s inp] at hd ⊢
  rw [step_of_running_cycle hrun hev, instrStep_of_error hd, mapNext_endCycle_raise]
  rfl

/-- An instruction that raises ends its step in the error entry (60_exceptions.md R207). -/
theorem step_of_exec_raise {s : State} {inp : CycleInputs} {i : Instr} {e : ExecError} (hrun : s.mode ≠ .halted)
    (hev : s.nextEvent = .cycle inp) (hd : decodeWord s.fetchWord = .ok i)
    (hexec : ∀ t : State, t.sp = s.sp → exec i t = .next (t.raise e)) :
    step s = .next (((s.takeEvent.setPins inp).setIr s.fetchWord).raise e) := by
  have hraise := hexec ((s.takeEvent.setPins inp).setIr s.fetchWord) s.takeEvent_sp
  rw [step_of_decoded hrun hev hd, hraise, mapNext_endCycle_raise]

/-- Settles O8: a call on a full stack and a return on an empty one raise. -/
theorem stackErrorsAbandonTheCycle : Obligations.StackErrorsAbandonTheCycle := by
  intro s inp hrun hev
  constructor
  · intro nnn hd hfull
    exact step_of_exec_raise hrun hev hd fun t ht => exec_call_of_full nnn (by rw [ht]; omega)
  · intro hd hempty
    exact step_of_exec_raise hrun hev hd fun t ht => exec_ret_of_empty (by rw [ht]; omega)

/-- A timer's count after a cycle, by whether it ticks: a tick is due and the count is above 0
(60_exceptions.md R212). -/
theorem decayWhen_eq_ite (due : Bool) (v : Byte) :
    decayWhen due v = if due = true ∧ v.toNat > 0 then v - 1 else v := by
  rw [decayWhen]
  by_cases hv : v = 0#8
  · simp [hv]
  · have hpos : v.toNat > 0 := by bv_omega
    simp [hv, hpos]

/-- Settles O12, by the rest of a cycle without an error. -/
theorem cycleSamplesKeysThenTicks : Obligations.CycleSamplesKeysThenTicks := by
  intro s t inp hrun ht htrun
  rw [cycle_of_running inp hrun, ht, ← decayWhen_eq_ite, ← decayWhen_eq_ite]
  exact congrArg Outcome.next (endCycle_of_running inp htrun)

/-! ### Which steps have a next state -/

/-- Settles O9: a halted machine's cycle changes nothing after the event is taken, and RenderAck writes `redraw`. -/
theorem haltedIsAbsorbing : Obligations.HaltedIsAbsorbing := by
  intro s hm hload hshut
  cases hev : s.nextEvent with
  | cycle inp =>
    refine ⟨s.takeEvent, ?_, sameExcept_of_updateFrom_eq s.updateFrom_takeEvent, fun _ _ => rfl⟩
    rw [step_of_cycle hev, cycle_of_halted inp (by rwa [s.takeEvent_mode])]
  | renderAck =>
    refine ⟨_, step_of_renderAck hev, sameExcept_of_updateFrom_eq ?_, nofun⟩
    exact congrArg State.renderAck s.updateFrom_takeEvent
  | load rom => exact absurd hev (hload rom)
  | shutdown => exact absurd hev hshut

theorem instrStep_has_next (s : State) : ∃ t, instrStep s = .next t := by
  cases hd : decodeWord s.fetchWord with
  | ok i => rw [instrStep_of_ok hd]; exact exec_has_next i _
  | error e => exact ⟨_, instrStep_of_error hd⟩

theorem cycle_has_next (inp : CycleInputs) (s : State) : ∃ t, cycle inp s = .next t := by
  by_cases hm : s.mode = .halted
  · exact ⟨s, cycle_of_halted inp hm⟩
  · obtain ⟨u, hu⟩ := instrStep_has_next (s.setPins inp)
    exact ⟨_, by rw [cycle_of_running inp hm, hu, mapNext]⟩

/-- Settles O10, by the host's event. -/
theorem onlyShutdownHasNoNextState : Obligations.OnlyShutdownHasNoNextState := by
  intro s
  cases hev : s.nextEvent with
  | cycle inp => exact .inr ⟨nofun, by rw [step_of_cycle hev]; exact cycle_has_next inp _⟩
  | renderAck => exact .inr ⟨nofun, _, step_of_renderAck hev⟩
  | load rom =>
    cases hl : loadRom rom s.takeEvent with
    | ok t => exact .inr ⟨nofun, t, step_of_load hev hl⟩
    | error e => exact .inr ⟨nofun, _, step_of_load_error hev hl⟩
  | shutdown => exact .inl ⟨rfl, step_of_shutdown hev⟩

end Sys2Proof.Machine
end

section
/-! SUPPORT. The timer unit, the keypad synchronizer and the tone. The proofs of O13 to O15 and O17 stand on this. -/

namespace Sys2Proof.Machine

/-! ### Timers and keys -/

theorem toNat_timerTick_dt (s : State) : s.timerTick.dt.toNat = s.dt.toNat - 1 := toNat_decayWhen true s.dt

theorem toNat_timerTick_st (s : State) : s.timerTick.st.toNat = s.st.toNat - 1 := toNat_decayWhen true s.st

/-- Settles O14: subtraction of 1 saturates at 0. -/
theorem timerTickWritesOnlyTheTimers : Obligations.TimerTickWritesOnlyTheTimers := by
  intro s
  have hdt := toNat_timerTick_dt s
  have hst := toNat_timerTick_st s
  exact ⟨fun _ => hdt, fun _ => by omega, fun _ => hst, fun _ => by omega, sameExcept_of_updateFrom_eq rfl⟩

/-- Settles O13, by induction on the ticks. -/
theorem timerHoldsTheValueLessTheTicks : Obligations.TimerHoldsTheValueLessTheTicks := by
  intro k s
  induction k with
  | zero => exact ⟨rfl, rfl⟩
  | succ k ih =>
    obtain ⟨hdt, hst⟩ := ih
    rw [Function.iterate_succ_apply', toNat_timerTick_dt, toNat_timerTick_st, hdt, hst]
    exact ⟨Nat.sub_sub _ _ _, Nat.sub_sub _ _ _⟩

/-- Settles O15: the new flags are the input. -/
theorem keySampleOverwritesAllFlags : Obligations.KeySampleOverwritesAllFlags := fun _ _ =>
  ⟨fun _ _ => rfl, sameExcept_of_updateFrom_eq rfl⟩

/-! ### The tone -/

theorem tone_eq_true_iff {s : State} : s.tone = true ↔ s.st.toNat > 0 := decide_eq_true_iff

theorem tone_eq_false_iff {s : State} : s.tone = false ↔ s.st.toNat = 0 := by
  rw [← Bool.not_eq_true, tone_eq_true_iff, Nat.not_lt, Nat.le_zero]

theorem toneEvent_of_starts {s t : State} (hs : s.st.toNat = 0) (ht : t.st.toNat > 0) :
    toneEvent s t = some .startTone := by
  rw [toneEvent, tone_eq_false_iff.mpr hs, tone_eq_true_iff.mpr ht]

theorem toneEvent_of_stops {s t : State} (hs : s.st.toNat > 0) (ht : t.st.toNat = 0) :
    toneEvent s t = some .stopTone := by
  rw [toneEvent, tone_eq_true_iff.mpr hs, tone_eq_false_iff.mpr ht]

/-- Without an edge of the tone there is no event (60_exceptions.md R214). -/
theorem toneEvent_of_no_edge {s t : State} (h : t.tone = s.tone) : toneEvent s t = none := by
  rw [toneEvent, h]
  cases s.tone <;> rfl

theorem toneEvent_of_on {s t : State} (hs : s.st.toNat > 0) (ht : t.st.toNat > 0) : toneEvent s t = none :=
  toneEvent_of_no_edge (by rw [tone_eq_true_iff.mpr hs, tone_eq_true_iff.mpr ht])

theorem toneEvent_of_off {s t : State} (hs : s.st.toNat = 0) (ht : t.st.toNat = 0) : toneEvent s t = none :=
  toneEvent_of_no_edge (by rw [tone_eq_false_iff.mpr hs, tone_eq_false_iff.mpr ht])

/-- A tick stops the tone exactly when it takes the sound timer from 1 to 0 (60_exceptions.md R214). -/
theorem toneEvent_timerTick (s : State) :
    toneEvent s s.timerTick = if s.st.toNat = 1 then some .stopTone else none := by
  have hst := toNat_timerTick_st s
  split
  case isTrue h1 => exact toneEvent_of_stops (by omega) (by omega)
  case isFalse h1 =>
    by_cases h0 : s.st.toNat = 0
    · exact toneEvent_of_off h0 (by omega)
    · exact toneEvent_of_on (by omega) (by omega)

/-- A new run starts with the sound timer at 0 (10_state.md R30). -/
theorem loadRom_st {rom : List Byte} {s t : State} (h : loadRom rom s = .ok t) : t.st = 0 := by
  unfold loadRom at h
  split at h <;> cases h
  rfl

/-- Settles O17: Fx18 leaves `st` at Vx, and a tone event is an edge of `st > 0`. -/
theorem toneFollowsTheSoundTimer : Obligations.ToneFollowsTheSoundTimer := by
  refine ⟨fun s => tone_eq_true_iff, fun x s => ?fx18, toneEvent_timerTick, fun rom s t h => ?load⟩
  case fx18 =>
    exact ⟨_, rfl, fun h0 hx => toneEvent_of_starts h0 hx, fun h0 hx => toneEvent_of_stops h0 hx,
      fun h0 hx => toneEvent_of_on h0 hx, fun h0 hx => toneEvent_of_off h0 hx⟩
  case load => exact tone_eq_false_iff.mpr (congrArg BitVec.toNat (loadRom_st h))

end Sys2Proof.Machine
end

section
/-! SUPPORT. That a step keeps a machine at a jump to itself there, that a run which never leaves error-free states is
safe, and what a rejected Load leaves. The proofs of O11, O20 and O56 stand on this. -/

namespace Sys2Proof.Machine

open Host (Outcome)

/-! ### Completion -/

/-- Settles O11: a call and a return at the stack's limits have the error entry as their next state. -/
theorem everyInstructionCompletes : Obligations.EveryInstructionCompletes := exec_has_next

/-! ### The self-jump -/

/-- A running machine without scripted events whose word at `pc` is a jump to `pc` (40_control_flow.md R102): what holds
before each step of the loop. -/
structure State.AtSelfJump (nnn : Addr12) (s : State) : Prop where
  running : s.mode = .running
  unscripted : s.events = []
  word : decodeWord s.fetchWord = .ok (.jp nnn)
  target : s.pc.toNat = nnn.toNat

/-- With no event scripted the next one is a cycle, whatever its inputs (log 4). -/
theorem nextEvent_of_unscripted {s : State} (h : s.events = []) : ∃ inp, s.nextEvent = .cycle inp :=
  ⟨_, by rw [State.nextEvent, h]⟩

@[simp] theorem takeEvent_events (s : State) : s.takeEvent.events = s.events.tail := by
  unfold State.takeEvent
  split <;> simp [*]

@[simp] theorem endCycle_events (inp : CycleInputs) (s : State) : (s.endCycle inp).events = s.events := by
  unfold State.endCycle
  split <;> rfl

/-- A jump to its own address changes nothing (40_control_flow.md R102). -/
theorem exec_jp_of_self {nnn : Addr12} {s : State} (h : s.pc.toNat = nnn.toNat) : exec (.jp nnn) s = .next s := by
  have hpc : zextAddr nnn = s.pc := BitVec.eq_of_toNat_eq ((toNat_zextAddr nnn).trans h.symm)
  exact congrArg (fun target => Outcome.next (s.setPc target)) hpc

/-- A step on a self-jump is a cycle around an instruction that changes nothing, so the machine is at it again. -/
theorem State.AtSelfJump.exists_step {nnn : Addr12} {s : State} (h : s.AtSelfJump nnn) :
    ∃ t, step s = .next t ∧ t.AtSelfJump nnn := by
  obtain ⟨hrun, hev, hword, hpc⟩ := h
  obtain ⟨inp, hcycle⟩ := nextEvent_of_unscripted hev
  have hexec : exec (.jp nnn) ((s.takeEvent.setPins inp).setIr s.fetchWord) =
      .next ((s.takeEvent.setPins inp).setIr s.fetchWord) := exec_jp_of_self (by simpa using hpc)
  have hstep := step_of_decoded (by simp [hrun]) hcycle hword
  rw [hexec] at hstep
  refine ⟨_, hstep, ?running, ?unscripted, ?word, ?target⟩
  case running => simpa using hrun
  case unscripted => simp [hev]
  case word => simpa using hword
  case target => simpa using hpc

/-- A property that rules out an error and that some step from each of its states keeps makes every run safe. -/
theorem safeRun_of_invariant {P : State → Prop} (hsafe : ∀ s, P s → s.ErrorFree)
    (hstep : ∀ s, P s → ∃ t, step s = .next t ∧ P t) : ∀ (k : Nat) {s : State}, P s → SafeRun k s
  | 0, s, hs => hsafe s hs
  | k + 1, s, hs =>
    have ⟨t, ht, hPt⟩ := hstep s hs
    ⟨hsafe s hs, t, ht, safeRun_of_invariant hsafe hstep k hPt⟩

theorem State.AtSelfJump.errorFree {nnn : Addr12} {s : State} (h : s.AtSelfJump nnn) : s.ErrorFree := by
  simp [State.ErrorFree, h.running]

/-- Settles O56: the machine is at the self-jump before each step. -/
theorem selfJumpRunsForever : Obligations.SelfJumpRunsForever := fun k _ nnn hrun hev hword hpc =>
  safeRun_of_invariant (P := State.AtSelfJump nnn) (fun _ => State.AtSelfJump.errorFree)
    (fun _ => State.AtSelfJump.exists_step) k ⟨hrun, hev, hword, hpc⟩

/-! ### A Load that fails -/

/-- An image of more than 3584 bytes is rejected, whatever the state (70_reset_and_hazards.md R232). -/
theorem loadRom_of_too_large {rom : List Byte} (h : rom.length > Config.romMax) (s : State) :
    loadRom rom s = .error .romTooLarge := by
  simp [loadRom, romFits, Nat.not_le.mpr h]

/-- A Load is the oldest scripted event, for the event of an empty list is a cycle (log 4). -/
theorem takeEvent_of_load {s : State} {rom : List Byte} (h : s.nextEvent = .load rom) :
    s.takeEvent = { s with events := s.events.tail } := by
  cases hev : s.events with
  | nil =>
    obtain ⟨inp, hcycle⟩ := nextEvent_of_unscripted hev
    cases hcycle.symm.trans h
  | cons e es => rw [State.takeEvent, hev, List.tail_cons]

/-- Settles O20: the step takes the event, and the rejected Load leaves the rest. -/
theorem romTooLargeChangesNothing : Obligations.RomTooLargeChangesNothing := by
  refine fun rom s hlarge => ⟨loadRom_of_too_large hlarge s, fun hev => ?_⟩
  rw [step_of_load_error hev (loadRom_of_too_large hlarge _), takeEvent_of_load hev]

end Sys2Proof.Machine
end
